-- ==== Sys2Proof/Word.lean ====
section
/-!
DEFINITION. The words of the unit (R6, R7, R37, R38). Bit 0 is the least significant bit. The readings of R7 are
`u(w) = w.toNat`, `s(w) = w.toInt`, `bv_N(n) = BitVec.ofInt N n` (`BitVec.ofNat` for a natural number).
-/

namespace Sys2Proof

/-- A 64-bit word: an operand, a Q32 value (R11), a result (R38). -/
abbrev Word := BitVec 64

/-- A half-limb: a 32-bit half of a 64-bit word (00_scope.md glossary). -/
abbrev HalfLimb := BitVec 32

/-- The request word `REQ = {op, a, b}`, 132 bits (R37). -/
abbrev ReqWord := BitVec 132

/-- The response word `RSP = {status, r}`, 66 bits (R38). -/
abbrev RspWord := BitVec 66

end Sys2Proof
end

