-- ==== Sys2Proof/Syntax.lean ====
section
/-!
DEFINITION. The operations of the unit, one constructor per row of spec/opcode_table.json (R39). An operation holds the
operands of R40 and nothing else: the bits R41 calls ignored are no part of it, and the result always goes to the
response (R37).
-/

namespace Sys2Proof

/-- An operation request the unit executes (R2, R39, R98). -/
inductive Instr where
  /-- `RAW`: pass a raw value through (R48). -/
  | raw (x : Word)
  /-- `CONST` with selector 0: `ONE` (R49). -/
  | constOne
  /-- `CONST` with selector 1: `ZERO` (R49). -/
  | constZero
  /-- `CONST` with selector 2: `EPSILON` (R49). -/
  | constEpsilon
  /-- `CONST` with selector 3: `MAXIMUM` (R49). -/
  | constMaximum
  /-- `CONST` with selector 4: `MINIMUM` (R49). -/
  | constMinimum
  /-- `FROMINT`: 32-bit integer to Q32 (R50). -/
  | fromint (n : HalfLimb)
  /-- `TOINT`: Q32 to 32-bit integer (R51). -/
  | toint (x : Word)
  /-- `TODBL`: Q32 to binary64 (R52). -/
  | todbl (x : Word)
  /-- `ADD`: fixed-point addition (R56). -/
  | add (x y : Word)
  /-- `SUB`: fixed-point subtraction, `x` the minuend (R57). -/
  | sub (x y : Word)
  /-- `MUL`: fixed-point multiplication (R60). -/
  | mul (x y : Word)
  deriving DecidableEq, Repr

end Sys2Proof
end

