-- ==== Sys2Proof/Decode.lean ====
section
/-!
DEFINITION. The request encoding: fields (R37), operand slices (R40), decoding, total on every request word (R47), with
the reserved values rejected by name (R42, R43), and the canonical encoding (R41, R45: ignored bits 0).
-/

namespace Sys2Proof

/-- The two exceptions of the unit (R80). The operand is what `raise` names (R9); no response echoes it (R80). -/
inductive Trap where
  /-- `IllegalOp(op)`: `u(op) >= 8` (R42, R78). -/
  | illegalOp (op : BitVec 4)
  /-- `IllegalConst(sel)`: `op = 1` and `u(sel) >= 5` (R43, R79). -/
  | illegalConst (sel : BitVec 3)
  deriving DecidableEq, Repr

/-- `op = REQ[131:128]` (R37). -/
def opField (w : ReqWord) : BitVec 4 :=
  w.extractLsb' 128 4

/-- `a = REQ[127:64]` (R37). -/
def aField (w : ReqWord) : Word :=
  w.extractLsb' 64 64

/-- `b = REQ[63:0]` (R37). -/
def bField (w : ReqWord) : Word :=
  w.extractLsb' 0 64

/-- `REQ = {op, a, b}` (R37). -/
def packRequest (op : BitVec 4) (a b : Word) : ReqWord :=
  op ++ (a ++ b)

/-- `sel = a[2:0]`, the selector of `CONST` (R40). -/
def selOperand (a : Word) : BitVec 3 :=
  a.extractLsb' 0 3

/-- `n = a[31:0]`, the integer operand of `FROMINT` (R40). -/
def intOperand (a : Word) : HalfLimb :=
  a.extractLsb' 0 32

/-- `CONST`: the selectors 0 to 4 select a constant, 5 to 7 none (R43, R49). -/
def decodeConst (sel : BitVec 3) : Except Trap Instr :=
  match sel.toNat with
  | 0 => .ok .constOne
  | 1 => .ok .constZero
  | 2 => .ok .constEpsilon
  | 3 => .ok .constMaximum
  | 4 => .ok .constMinimum
  | _ => .error (.illegalConst sel)

/-- Decoding of the fields of a request: `op` first, then the selector of `CONST` (R39, R47). -/
def decodeFields (op : BitVec 4) (a b : Word) : Except Trap Instr :=
  match op.toNat with
  | 0 => .ok (.raw a)
  | 1 => decodeConst (selOperand a)
  | 2 => .ok (.fromint (intOperand a))
  | 3 => .ok (.toint a)
  | 4 => .ok (.todbl a)
  | 5 => .ok (.add a b)
  | 6 => .ok (.sub a b)
  | 7 => .ok (.mul a b)
  | _ => .error (.illegalOp op)

/-- The decoder of R47, total on every request word. -/
def decode (w : ReqWord) : Except Trap Instr :=
  decodeFields (opField w) (aField w) (bField w)

/-- The operation code of each operation (R39). -/
def opCode (i : Instr) : BitVec 4 :=
  match i with
  | .raw _ => 0
  | .constOne => 1
  | .constZero => 1
  | .constEpsilon => 1
  | .constMaximum => 1
  | .constMinimum => 1
  | .fromint _ => 2
  | .toint _ => 3
  | .todbl _ => 4
  | .add _ _ => 5
  | .sub _ _ => 6
  | .mul _ _ => 7

/-- The canonical first operand: the operand of R40, every ignored bit 0 (R41, R45). -/
def aOperand (i : Instr) : Word :=
  match i with
  | .raw x => x
  | .constOne => 0
  | .constZero => 1
  | .constEpsilon => 2
  | .constMaximum => 3
  | .constMinimum => 4
  | .fromint n => n.setWidth 64
  | .toint x => x
  | .todbl x => x
  | .add x _ => x
  | .sub x _ => x
  | .mul x _ => x

/-- The canonical second operand: 0 where `b` is ignored (R41, R45). -/
def bOperand (i : Instr) : Word :=
  match i with
  | .raw _ => 0
  | .constOne => 0
  | .constZero => 0
  | .constEpsilon => 0
  | .constMaximum => 0
  | .constMinimum => 0
  | .fromint _ => 0
  | .toint _ => 0
  | .todbl _ => 0
  | .add _ y => y
  | .sub _ y => y
  | .mul _ y => y

/-- The canonical request word of an operation (R39 to R41, R45). -/
def encode (i : Instr) : ReqWord :=
  packRequest (opCode i) (aOperand i) (bOperand i)

/-- The request word of an instruction given as a table row numbers its bits (spec/opcode_table.json): bit 0 the least
significant, 132 bits. The unit has no byte order and no padding (R27, R44): of a row rounded up to whole bytes the bits
above 131 have no wire and are dropped. Log 7. -/
def requestOfTableBits (nbits w : Nat) : ReqWord :=
  BitVec.ofNat 132 (w % 2 ^ nbits)

/-- The instruction the decoder reads from a table row's bits. -/
def decodeTableWord (nbits w : Nat) : Option Instr :=
  match decode (requestOfTableBits nbits w) with
  | .ok i => some i
  | .error _ => none

end Sys2Proof
end

