-- ==== Sys2Proof/ScriptSyntax.lean ====
section
/-!
DEFINITION. The abstract syntax of scripts (R45): what a host writes, one request a line. The temporaries are host-side
names, not registers of the unit (R13).
-/

namespace Sys2Proof

/-- `cname` of R45: the five named constants, in the document's order (R12). -/
inductive ConstName where
  | one
  | zero
  | epsilon
  | maximum
  | minimum
  deriving DecidableEq, Repr

/-- `mnemonic` of R45, and the pseudo-operation `NEG` of R46. -/
inductive Mnemonic where
  | raw
  | const
  | fromint
  | toint
  | todbl
  | add
  | sub
  | mul
  /-- `NEG x` stands for `SUB 0x0, x` (R46). -/
  | neg
  deriving DecidableEq, Repr

/-- `operand` of R45. -/
inductive Operand where
  /-- `hexword`, zero-extended to 64 bits. -/
  | hex (w : Word)
  /-- `cname`. -/
  | cname (c : ConstName)
  /-- `name`: the host-side temporary `t<k>`. -/
  | temp (k : Nat)
  /-- `decimal`, only as the operand of `FROMINT`. -/
  | decimal (n : Int)
  deriving DecidableEq, Repr

/-- A line of a script (R45), or a request a host gives as its word because the syntax cannot spell it (95_test_vectors.md P5). -/
inductive Line where
  /-- `[ name "=" ] mnemonic operand [ "," operand ]`. -/
  | op (dest : Option Nat) (m : Mnemonic) (x : Operand) (y : Option Operand)
  /-- A request word as such. -/
  | bits (dest : Option Nat) (w : ReqWord)
  deriving DecidableEq, Repr

end Sys2Proof
end

