-- ==== Sys2Proof/Machine/Operands.lean ====
section
/-!
DEFINITION. The operators on operands that the operation rules share (R8), the half-limbs of a magnitude (R62), and the
named constants (R12). The operand slices themselves are taken by the decoder (R40, Decode.lean).
-/

namespace Sys2Proof.Machine

/-- `neg_64(x)`: two's-complement negation modulo 2^64; 0 and `0x8000000000000000` are their own negation (R8). -/
def neg64 (x : Word) : Word :=
  -x

/-- `sext_64(v)` of a 32-bit vector (R8). -/
def sext64 (v : HalfLimb) : Word :=
  v.signExtend 64

/-- `x >>a n` on 64 bits (R8). -/
def sra64 (x : Word) (n : Nat) : Word :=
  x.sshiftRight n

/-- The magnitude of a word, read as unsigned: `neg_64(x)` when bit 63 is 1, else `x`; that of `MINIMUM` is `2^63`
(R61, C3, U6). -/
def magnitude (x : Word) : Word :=
  if x.msb then neg64 x else x

/-- The upper half-limb `w[63:32]` (R62, R63). -/
def highHalf (w : Word) : HalfLimb :=
  w.extractLsb' 32 32

/-- The lower half-limb `w[31:0]` (R62, R63). -/
def lowHalf (w : Word) : HalfLimb :=
  w.extractLsb' 0 32

/-- The five named constants, hardwired (R12). -/
def constWord (c : ConstName) : Word :=
  match c with
  | .one => 0x0000000100000000
  | .zero => 0x0000000000000000
  | .epsilon => 0x0000000000000001
  | .maximum => 0x7FFFFFFFFFFFFFFF
  | .minimum => 0x8000000000000000

end Sys2Proof.Machine
end

