-- ==== Sys2Proof/Config.lean ====
section
/-!
DEFINITION. The parameters of the unit (R5). A parameter the spec marks OPEN is an opaque constant, so that no proof can
lean on its value. The widths are the widths of the types of Word.lean and Machine/State.lean; `LATENCY` is carried by the
clock edges of State (log 2).
-/

namespace Sys2Proof

/-- How many requests beyond one the unit holds in flight. OPEN (R5, R95): no body, any natural number. Log 3. -/
opaque Config.spareInflight : Nat

/-- `MAX_INFLIGHT` of R5: OPEN, at least 1. -/
def Config.maxInflight : Nat :=
  Config.spareInflight + 1

/-- `SIGN_REATTACH` of R5: true on this hardware; false is the reference path of R75, for differential testing only.
Log 14. -/
def Config.signReattach : Bool :=
  true

end Sys2Proof
end

