-- ==== Sys2Proof/Machine/State.lean ====
section
/-!
DEFINITION. The state of the machine: the unit's in-flight queue (R24), which is all the unit holds (R10), and, as plain
data beside it, what the host drives at the coming clock edges and the record of the run (log 1, 5, 6). The unit has no
registers, program counter, flags, control registers or memory (R13 to R18).
-/

namespace Sys2Proof.Machine

/-- The response of a transaction (R38, R80). An error response has no result: the 0 on the wire is not a value
(R80, U12). Status 3 is never produced and has no constructor (R38, U13). -/
inductive Response where
  /-- Status 0, `OK`, with the result `r`. -/
  | ok (r : Word)
  /-- Status 1, `ILLEGAL_OP` (R78). -/
  | illegalOp
  /-- Status 2, `ILLEGAL_CONST` (R79). -/
  | illegalConst
  deriving DecidableEq, Repr

/-- An entry of the in-flight queue: the accepted `{op, a, b}` and, once computed, its `{status, r}` (R24). -/
structure Entry where
  req : ReqWord
  rsp : Option Response
  deriving DecidableEq, Repr

/-- One rising edge of `clk`: the input signals the host drives at it (R22), and the two choices the spec leaves open to
the unit at it. -/
structure Edge where
  /-- `rst`: synchronous reset, active high (R91). -/
  rst : Bool
  /-- `req_valid`. -/
  reqValid : Bool
  /-- `req_op`. -/
  reqOp : BitVec 4
  /-- `req_a`. -/
  reqA : Word
  /-- `req_b`. -/
  reqB : Word
  /-- `rsp_ready`. -/
  rspReady : Bool
  /-- The unit's choice: it raises `req_ready` at this edge if it has room (R23 item 6). Log 4. -/
  unitReady : Bool
  /-- The unit's choice: it finishes the oldest unanswered request in time for this edge (`LATENCY`, R95). Log 2. -/
  unitAnswers : Bool
  deriving DecidableEq, Repr

/-- The whole machine. `inflight` is the unit's (R24); the other fields are the model's own. -/
structure State where
  /-- The in-flight queue, oldest first (R24). -/
  inflight : List Entry
  /-- The request presented at the last edge and not accepted: the host must still present it (R23 item 2). Log 5. -/
  held : Option ReqWord
  /-- What happens at the coming clock edges, soonest first. Log 1. -/
  edges : List Edge
  /-- The requests accepted since the last reset, oldest first (R32, R97). Log 6. -/
  accepted : List ReqWord
  /-- The responses delivered since the last reset, oldest first: the end state of a run (R97). Log 6. -/
  delivered : List Response
  deriving DecidableEq, Repr

/-- The machine after reset (R25, R92): the in-flight queue is empty, and so are the model's own fields (log 5, 6, 8).
The unit before its first reset edge is not modelled (log 16). -/
def State.reset : State :=
  { inflight := [], held := none, edges := [], accepted := [], delivered := [] }

/-- Why the machine stops with a fault: never. The defined operations are total (R77), and a reserved request is
answered with an error status, after which the unit goes on (R82, R84). So there is no constructor (log 9). -/
inductive Fault : Type
  deriving DecidableEq, Repr

/-- Why a step has no meaning. -/
inductive Refusal where
  /-- Raised by an arm of `exec` whose instruction has no meaning yet. Safe: no claim follows from a refusal. -/
  | notModelled (mnemonic : String)
  /-- Raised by a clock edge at which the host withdraws or changes a request it has asserted and that is not yet
  accepted (R23 item 2). U16: the spec gives such a run no meaning. Safe for hosts that keep the protocol; the model says
  nothing of others. -/
  | requestNotHeld
  deriving DecidableEq, Repr

end Sys2Proof.Machine
end

