-- ==== Sys2Proof/Machine/Ops.lean ====
section
/-!
DEFINITION. The named operations over the in-flight queue: accept, respond, raise, deliver, reset (R23, R82, R92), the
wires of a response (R38), and the placing of a request where the unit takes its next one. There is no memory and no
register file to read or write (R13, R18). There is no return from an exception: nothing was entered (R84).
-/

namespace Sys2Proof.Machine

/-- `status` of a response (R38, R80). -/
def Response.status (r : Response) : BitVec 2 :=
  match r with
  | .ok _ => 0
  | .illegalOp => 1
  | .illegalConst => 2

/-- `r` of a response on the wire: 0 in an error response (R38). -/
def Response.wire (r : Response) : Word :=
  match r with
  | .ok x => x
  | .illegalOp => 0
  | .illegalConst => 0

/-- `RSP = {status, r}` (R38). -/
def Response.word (r : Response) : RspWord :=
  r.status ++ r.wire

/-- The oldest request of a queue that has no response yet. -/
def oldestPending (q : List Entry) : Option ReqWord :=
  match q with
  | [] => none
  | e :: rest =>
    match e.rsp with
    | none => some e.req
    | some _ => oldestPending rest

/-- The oldest entry without a response gets `r`, in its place in the queue; no entry else changes. -/
def answerOldest (r : Response) (q : List Entry) : List Entry :=
  match q with
  | [] => []
  | e :: rest =>
    match e.rsp with
    | none => { e with rsp := some r } :: rest
    | some _ => e :: answerOldest r rest

/-- `respond(status, r)` of R9: the response of the transaction being executed, which is the oldest unanswered one
(R23; log 11). Where no request waits nothing changes (R81; log 10). -/
def respond (r : Response) (s : State) : State :=
  { s with inflight := answerOldest r s.inflight }

/-- The error response of an exception (R78, R79). -/
def trapResponse (t : Trap) : Response :=
  match t with
  | .illegalOp _ => .illegalOp
  | .illegalConst _ => .illegalConst

/-- Taking an exception (R9, R82): the error response in the request's place in the response order, and nothing else. No
state is saved, no mode changes, no control goes anywhere. -/
def raise (t : Trap) (s : State) : State :=
  respond (trapResponse t) s

/-- Fewer than `MAX_INFLIGHT` requests are accepted and undelivered (R23 item 6, R24). -/
def hasRoom (s : State) : Bool :=
  decide (s.inflight.length < Config.maxInflight)

/-- A request is accepted: it joins the queue (R23 item 1; `issue` of the clock-free protocol). -/
def issue (w : ReqWord) (s : State) : State :=
  { s with inflight := s.inflight ++ [{ req := w, rsp := none }], accepted := s.accepted ++ [w] }

/-- The response that is valid: that of the oldest request, once computed (R23 items 3, 4; R24). -/
def headResponse (q : List Entry) : Option Response :=
  match q with
  | [] => none
  | e :: _ => e.rsp

/-- The oldest response is delivered and leaves the queue, if it is valid (R23 item 4; `take` of the clock-free
protocol). -/
def deliver (s : State) : State :=
  match headResponse s.inflight with
  | none => s
  | some r => { s with inflight := s.inflight.tail, delivered := s.delivered ++ [r] }

/-- The effect of reset (R92): the in-flight queue is emptied; the record of the run starts again (log 6) and the host
holds no request (log 5). -/
def clear (s : State) : State :=
  { s with inflight := [], held := none, accepted := [], delivered := [] }

/-- The queue with `w` as its oldest unanswered request: in the place of the one there, or at the end. -/
def placeInQueue (w : ReqWord) (q : List Entry) : List Entry :=
  match q with
  | [] => [{ req := w, rsp := none }]
  | e :: rest =>
    match e.rsp with
    | none => { e with req := w } :: rest
    | some _ => e :: placeInQueue w rest

/-- `w` stands where the next step takes its request: no clock edge comes before it, and it is the oldest unanswered
request. Log 8. -/
def placeRequest (w : ReqWord) (s : State) : State :=
  { s with inflight := placeInQueue w s.inflight, edges := [] }

end Sys2Proof.Machine
end

