-- ==== Sys2Proof/Machine/AddSub.lean ====
section
/-!
DEFINITION. Addition and subtraction (41_addsub.md, R56 to R59). Both wrap modulo 2^64 and report nothing (R58).
-/

namespace Sys2Proof.Machine

/-- `x +_64 y` (R8, R56). -/
def addResult (x y : Word) : Word :=
  x + y

/-- `x -_64 y` (R8, R57). -/
def subResult (x y : Word) : Word :=
  x - y

/-- `ADD` (R56). -/
def execAdd (x y : Word) (s : State) : Host.Outcome State Fault Refusal :=
  .next (respond (.ok (addResult x y)) s)

/-- `SUB` (R57). -/
def execSub (x y : Word) (s : State) : Host.Outcome State Fault Refusal :=
  .next (respond (.ok (subResult x y)) s)

end Sys2Proof.Machine
end

