-- ==== Sys2Proof/Machine/Convert.lean ====
section
/-!
DEFINITION. Construction and conversion: `RAW`, `CONST`, `FROMINT`, `TOINT`, `TODBL` (40_convert.md, R48 to R55). Every
meaning ends in `respond(0, r)` (R77).
-/

namespace Sys2Proof.Machine

/-- The result of `FROMINT`: `sext_64(n) << 32` (R50). -/
def fromIntResult (n : HalfLimb) : Word :=
  sext64 n <<< 32

/-- The result of `TOINT`: `sext_64((x >>a 32)[31:0])` (R51). -/
def toIntResult (x : Word) : Word :=
  sext64 (lowHalf (sra64 x 32))

/-- The 53-bit significand `q` of a magnitude `m` whose highest set bit is `k`, rounded to nearest, ties to even, and the
exponent position after the rounding (R52, D12; log 13). -/
def roundSignificand (m k : Nat) : Nat × Nat :=
  if k ≤ 52 then
    (m * 2 ^ (52 - k), k)
  else
    let sh := k - 52
    let q0 := m / 2 ^ sh
    let rem := m % 2 ^ sh
    let half := 2 ^ (sh - 1)
    let up := decide (half < rem) || (decide (rem = half) && decide (q0 % 2 = 1))
    let q := if up then q0 + 1 else q0
    if q = 2 ^ 53 then (2 ^ 52, k + 1) else (q, k)

/-- The binary64 pattern `{sign, E, frac}` (R53). -/
def packDouble (sign : Bool) (e frac : Nat) : Word :=
  BitVec.ofBool sign ++ (BitVec.ofNat 11 e ++ BitVec.ofNat 52 frac)

/-- The result of `TODBL` (R52): +0.0 for 0, else sign, exponent `k - 32 + 1023` and fraction `q - 2^52`. -/
def toDoubleResult (x : Word) : Word :=
  if x.toNat = 0 then
    0
  else
    let m := (magnitude x).toNat
    let qk := roundSignificand m (Nat.log2 m)
    packDouble x.msb (qk.2 + 1023 - 32) (qk.1 - 2 ^ 52)

/-- `RAW` (R48): the identity on 64-bit patterns. -/
def execRaw (x : Word) (s : State) : Host.Outcome State Fault Refusal :=
  .next (respond (.ok x) s)

/-- `CONST ONE` (R49). -/
def execConstOne (s : State) : Host.Outcome State Fault Refusal :=
  .next (respond (.ok (constWord .one)) s)

/-- `CONST ZERO` (R49). -/
def execConstZero (s : State) : Host.Outcome State Fault Refusal :=
  .next (respond (.ok (constWord .zero)) s)

/-- `CONST EPSILON` (R49). -/
def execConstEpsilon (s : State) : Host.Outcome State Fault Refusal :=
  .next (respond (.ok (constWord .epsilon)) s)

/-- `CONST MAXIMUM` (R49). -/
def execConstMaximum (s : State) : Host.Outcome State Fault Refusal :=
  .next (respond (.ok (constWord .maximum)) s)

/-- `CONST MINIMUM` (R49). -/
def execConstMinimum (s : State) : Host.Outcome State Fault Refusal :=
  .next (respond (.ok (constWord .minimum)) s)

/-- `FROMINT` (R50). -/
def execFromInt (n : HalfLimb) (s : State) : Host.Outcome State Fault Refusal :=
  .next (respond (.ok (fromIntResult n)) s)

/-- `TOINT` (R51): rounds toward negative infinity. -/
def execToInt (x : Word) (s : State) : Host.Outcome State Fault Refusal :=
  .next (respond (.ok (toIntResult x)) s)

/-- `TODBL` (R52, R53): no inexact flag (R15). -/
def execToDbl (x : Word) (s : State) : Host.Outcome State Fault Refusal :=
  .next (respond (.ok (toDoubleResult x)) s)

end Sys2Proof.Machine
end

