-- ==== Sys2Proof/Machine/Flags.lean ====
section
/-!
DEFINITION. Flags. The unit has no flag that outlives a transaction and none a host can read (R15): no carry, overflow,
zero, negative or inexact flag, so State has no flag field and no operation writes one. What stands here are the
transient one- and two-bit values of one `MUL` transaction that R15 names: the sign (R61), the carry of the middle column
(R64) and the rounding bit (R68).
-/

namespace Sys2Proof.Machine

/-- The sign of an operand is its bit 63 (R61). -/
def signBit (x : Word) : Bool :=
  x.msb

/-- `result_is_negative` of R61: starts false and is flipped once for each negative operand. -/
def resultIsNegative (x y : Word) : Bool :=
  let afterX := if signBit x then !false else false
  if signBit y then !afterX else afterX

/-- The loop of R64 on `(sum, carry)`: while `sum > 2^32 - 1`, subtract `2^32` and count. `fuel` bounds the iterations
(log 12). -/
def drainCarry (fuel sum carry : Nat) : Nat × Nat :=
  match fuel with
  | 0 => (sum, carry)
  | fuel + 1 => if 2 ^ 32 - 1 < sum then drainCarry fuel (sum - 2 ^ 32) (carry + 1) else (sum, carry)

/-- The rounding bit, bit 31 of `low` (R68). -/
def roundingBit (low : Word) : Bool :=
  low.getLsbD 31

end Sys2Proof.Machine
end

