-- ==== Sys2Proof/Machine/Multiply.lean ====
section
/-!
DEFINITION. Multiplication (42_multiply.md): the nine steps of R60, one definition per step, and the 128-bit intermediate
WideProduct (R19), which exists only inside one transaction. The names of the transients are the document's; their widths
are those of R20.
-/

namespace Sys2Proof.Machine

/-- WideProduct: an unsigned 128-bit magnitude `(high:low)` and a separate sign (R19). -/
structure WideProduct where
  high : Word
  low : Word
  isNegative : Bool
  deriving DecidableEq, Repr

/-- The magnitude of a WideProduct, `u(high) * 2^64 + u(low)` (R19). -/
def wideMagnitude (p : WideProduct) : Nat :=
  p.high.toNat * 2 ^ 64 + p.low.toNat

/-- `is_big` (R21): a diagnostic; no response depends on it. -/
def isBig (p : WideProduct) : Bool :=
  (p.high != 0) || p.low.getLsbD 63

/-- The four cross-products of R63, each an exact product of two half-limbs. -/
structure CrossProducts where
  d : Word
  e : Word
  f : Word
  g : Word
  deriving DecidableEq, Repr

/-- The exact product of two half-limbs, which fits 64 bits (R8, R63). -/
def limbProduct (p q : HalfLimb) : Word :=
  BitVec.ofNat 64 (p.toNat * q.toNat)

/-- Steps 2 and 3 (R62, R63): the half-limbs of two magnitudes and their cross-products. -/
def crossProducts (avalue bvalue : Word) : CrossProducts :=
  { d := limbProduct (lowHalf avalue) (lowHalf bvalue)
    e := limbProduct (lowHalf avalue) (highHalf bvalue)
    f := limbProduct (highHalf avalue) (lowHalf bvalue)
    g := limbProduct (highHalf avalue) (highHalf bvalue) }

/-- `sum0 = u(d1) + u(e0) + u(f0)`, the middle column before normalisation, 34 bits (R64). -/
def middleSum (c : CrossProducts) : Nat :=
  (highHalf c.d).toNat + (lowHalf c.e).toNat + (lowHalf c.f).toNat

/-- Step 4 (R64): `(sum, carry)` after the carry is fully drained; the loop runs at most twice. -/
def middleColumn (c : CrossProducts) : HalfLimb × BitVec 2 :=
  let drained := drainCarry 2 (middleSum c) 0
  (BitVec.ofNat 32 drained.1, BitVec.ofNat 2 drained.2)

/-- `low` of step 5 (R65). -/
def assembleLow (c : CrossProducts) : Word :=
  BitVec.ofNat 64 ((lowHalf c.d).toNat + (middleColumn c).1.toNat * 2 ^ 32)

/-- `high` of step 5 (R65): the carry is an addend. -/
def assembleHigh (c : CrossProducts) : Word :=
  BitVec.ofNat 64
    ((middleColumn c).2.toNat + (highHalf c.e).toNat + (highHalf c.f).toNat + (lowHalf c.g).toNat +
      (highHalf c.g).toNat * 2 ^ 32)

/-- Steps 1 to 6 (R61 to R66): the exact product in sign-magnitude form. -/
def wideMultiply (x y : Word) : WideProduct :=
  let c := crossProducts (magnitude x) (magnitude y)
  { high := assembleHigh c, low := assembleLow c, isNegative := resultIsNegative x y }

/-- The bounds of the intermediate values of one `MUL` request, in the order of R71. That they hold of every request is
the statement `MulBounds`. -/
def withinBounds (x y : Word) : Prop :=
  let avalue := magnitude x
  let bvalue := magnitude y
  let c := crossProducts avalue bvalue
  let carry := (middleColumn c).2.toNat
  let sum := (middleColumn c).1.toNat
  (avalue.toNat ≤ 2 ^ 63 ∧ bvalue.toNat ≤ 2 ^ 63) ∧
  ((highHalf avalue).toNat ≤ 2 ^ 31 ∧ (highHalf bvalue).toNat ≤ 2 ^ 31) ∧
  ((lowHalf avalue).toNat ≤ 2 ^ 32 - 1 ∧ (lowHalf bvalue).toNat ≤ 2 ^ 32 - 1) ∧
  c.d.toNat ≤ (2 ^ 32 - 1) ^ 2 ∧
  (c.e.toNat ≤ (2 ^ 32 - 1) * 2 ^ 31 ∧ c.f.toNat ≤ (2 ^ 32 - 1) * 2 ^ 31) ∧
  c.g.toNat ≤ 2 ^ 62 ∧
  (highHalf c.d).toNat ≤ 2 ^ 32 - 2 ∧
  ((highHalf c.e).toNat ≤ 2 ^ 31 - 1 ∧ (highHalf c.f).toNat ≤ 2 ^ 31 - 1) ∧
  (highHalf c.g).toNat ≤ 2 ^ 30 ∧
  middleSum c ≤ 3 * 2 ^ 32 - 4 ∧
  carry ≤ 2 ∧
  (wideMultiply x y).high.toNat ≤ 2 ^ 62 ∧
  carry + (highHalf c.e).toNat + (highHalf c.f).toNat + (lowHalf c.g).toNat + (highHalf c.g).toNat * 2 ^ 32 < 2 ^ 64 ∧
  (lowHalf c.d).toNat + sum * 2 ^ 32 < 2 ^ 64

/-- Step 7 (R67): `result_raw = {high[31:0], low[63:32]}`. -/
def rescale (p : WideProduct) : Word :=
  lowHalf p.high ++ highHalf p.low

/-- Step 8 (R68): the increment is 1, modulo 2^64 (C1). -/
def roundMagnitude (resultRaw low : Word) : Word :=
  if roundingBit low then resultRaw + 1 else resultRaw

/-- Step 9 (R69), with the parameter `SIGN_REATTACH` of R75. -/
def reattachSign (signReattach : Bool) (isNegative : Bool) (resultRaw : Word) : Word :=
  if signReattach && isNegative then neg64 resultRaw else resultRaw

/-- The nine steps of R60 under a value of `SIGN_REATTACH`; false is the reference path of R75. -/
def mulResultWith (signReattach : Bool) (x y : Word) : Word :=
  let p := wideMultiply x y
  reattachSign signReattach p.isNegative (roundMagnitude (rescale p) p.low)

/-- The result of `MUL` on this hardware (R60, R5). -/
def mulResult (x y : Word) : Word :=
  mulResultWith Config.signReattach x y

/-- `MUL` (R60). Overflow wraps and is not reported (R72). -/
def execMul (x y : Word) (s : State) : Host.Outcome State Fault Refusal :=
  .next (respond (.ok (mulResult x y)) s)

end Sys2Proof.Machine
end

