-- ==== Sys2Proof/Machine/Dispatch.lean ====
section
/-!
DEFINITION. The meaning of each operation (R39, R47): one arm per constructor of Instr, one direct call of its meaning.
-/

namespace Sys2Proof.Machine

-- The operation map of R39.
def exec (i : Instr) (s : State) : Host.Outcome State Fault Refusal :=
  match i with
  | .raw x => Sys2Proof.Machine.execRaw x s
  | .constOne => Sys2Proof.Machine.execConstOne s
  | .constZero => Sys2Proof.Machine.execConstZero s
  | .constEpsilon => Sys2Proof.Machine.execConstEpsilon s
  | .constMaximum => Sys2Proof.Machine.execConstMaximum s
  | .constMinimum => Sys2Proof.Machine.execConstMinimum s
  | .fromint n => Sys2Proof.Machine.execFromInt n s
  | .toint x => Sys2Proof.Machine.execToInt x s
  | .todbl x => Sys2Proof.Machine.execToDbl x s
  | .add x y => Sys2Proof.Machine.execAdd x y s
  | .sub x y => Sys2Proof.Machine.execSub x y s
  | .mul x y => Sys2Proof.Machine.execMul x y s

end Sys2Proof.Machine
end

