-- ==== Sys2Proof/Machine/Ports.lean ====
section
/-!
DEFINITION. The unit's step and its ports: serving the oldest accepted request (R2, R23), the signals at one rising edge
of `clk` (R22, R23, R25) and the effect of that edge (R23, R91, R92).
-/

namespace Sys2Proof.Machine

/-- The unit's step: the oldest unanswered request is decoded and executed, or its exception is taken (R47, R82); with
no request pending the unit idles (R90). -/
def serve (s : State) : Host.Outcome State Fault Refusal :=
  match oldestPending s.inflight with
  | none => .next s
  | some w =>
    match decode w with
    | .ok i => exec i s
    | .error t => .next (raise t s)

/-- The request on the request port, `REQ = {req_op, req_a, req_b}` (R22, R37). -/
def portRequest (e : Edge) : ReqWord :=
  packRequest e.reqOp e.reqA e.reqB

/-- `req_ready` at an edge: 0 while `rst = 1` (R25); else the unit may raise it, only with room (R23 item 6). -/
def reqReady (e : Edge) (s : State) : Bool :=
  !e.rst && e.unitReady && hasRoom s

/-- The host still presents the request it asserted and that was not accepted (R23 item 2). -/
def requestHeld (e : Edge) (s : State) : Bool :=
  match s.held with
  | none => true
  | some w => e.reqValid && decide (portRequest e = w)

/-- The request channel at an edge with `rst = 0`: the request is accepted, or remains to be held, or there is none
(R23 items 1, 2). -/
def acceptAtEdge (e : Edge) (s : State) : State :=
  if e.reqValid then
    if reqReady e s then { issue (portRequest e) s with held := none }
    else { s with held := some (portRequest e) }
  else { s with held := none }

/-- The unit's work in time for an edge: at most one request is answered (R95; log 2). -/
def answerAtEdge (e : Edge) (s : State) : Host.Outcome State Fault Refusal :=
  if e.unitAnswers then serve s else .next s

/-- The response channel at an edge with `rst = 0` (R23 item 4). -/
def deliverAtEdge (e : Edge) (s : State) : State :=
  if e.rspReady then deliver s else s

/-- One rising edge of `clk` (log 2). With `rst = 1` nothing is accepted or delivered and the queue is emptied (R91, R92). With
`rst = 0` a request is accepted, a request may be answered, a response may be delivered (R23). A host that breaks
R23 item 2 gets no meaning (U16). -/
def clockEdge (e : Edge) (s : State) : Host.Outcome State Fault Refusal :=
  if e.rst then .next (clear s)
  else if requestHeld e s then
    match answerAtEdge e (acceptAtEdge e s) with
    | .next t => .next (deliverAtEdge e t)
    | .fault r => .fault r
    | .refused r => .refused r
  else .refused .requestNotHeld

/-- The output signals at an edge: `req_ready`, and the response channel, `none` while `rsp_valid = 0`, when
`rsp_status` and `rsp_r` have no meaning (R22, R23 item 5). -/
structure PortOutputs where
  reqReady : Bool
  rsp : Option Response
  deriving DecidableEq, Repr

/-- The output signals the unit drives at an edge (R22 to R25). -/
def portsAt (e : Edge) (s : State) : PortOutputs :=
  if e.rst then { reqReady := false, rsp := none }
  else
    match answerAtEdge e (acceptAtEdge e s) with
    | .next t => { reqReady := reqReady e s, rsp := headResponse t.inflight }
    | .fault _ => { reqReady := reqReady e s, rsp := none }
    | .refused _ => { reqReady := reqReady e s, rsp := none }

/-- One step of the machine: the next clock edge if one is listed, else the clock-free step of R23 (log 1). -/
def advance (s : State) : Host.Outcome State Fault Refusal :=
  match s.edges with
  | [] => serve s
  | e :: rest => clockEdge e { s with edges := rest }

end Sys2Proof.Machine
end

