-- ==== Sys2Proof/Machine/Step.lean ====
section
/-!
DEFINITION. One step of the machine, and the placing of a request where it takes its next one.
-/

namespace Sys2Proof.Machine

/-- One step (R23, R91): see `advance`. -/
def step (s : State) : Host.Outcome State Fault Refusal :=
  advance s

/-- `s` with the request `w` where the next step takes its request, so that it runs exactly it (log 7, 8). -/
def State.withFetchWord (s : State) (nbits w : Nat) : State :=
  placeRequest (requestOfTableBits nbits w) s

end Sys2Proof.Machine
end

