-- ==== Sys2Proof/Machine/Progress.lean ====
section
/-!
DEFINITION. Liveness (R96). Schedules without end, which are arguments of claims and no part of State, and what R96 asks of
the unit and of the host on one: the unit's step is weakly fair, and the host takes the responses. A single step leaves
the unit's choices `unitReady` and `unitAnswers` free (log 2, 4); `UnitIsFair` is the duty R96 lays on them.
-/

namespace Sys2Proof.Machine

/-- `t n` is the machine before edge `n` of the schedule, and each edge takes it to the next. -/
def Executes (schedule : Nat → Edge) (t : Nat → State) : Prop :=
  ∀ n, step { t n with edges := [schedule n] } = .next (t (n + 1))

/-- No edge of the schedule is a reset (R91); a reset loses the requests in flight (R92). -/
def NeverReset (schedule : Nat → Edge) : Prop :=
  ∀ n, (schedule n).rst = false

/-- Whenever `rsp_valid = 1` the host is ready, then or at a later edge (R96: "or does so eventually, every time"). -/
def HostTakes (schedule : Nat → Edge) (t : Nat → State) : Prop :=
  ∀ n, (portsAt (schedule n) (t n)).rsp.isSome → ∃ m, n ≤ m ∧ (schedule m).rspReady = true

/-- Weak fairness of the unit (R96): a request that waits is worked on in the end, and `req_ready` is raised in the end
where there is room from some edge on. -/
def UnitIsFair (schedule : Nat → Edge) (t : Nat → State) : Prop :=
  (∀ n, (oldestPending (t n).inflight).isSome → ∃ m, n ≤ m ∧ (schedule m).unitAnswers = true) ∧
  (∀ n, (∀ m, n ≤ m → hasRoom (t m) = true) → ∃ m, n ≤ m ∧ (schedule m).unitReady = true)

end Sys2Proof.Machine
end

