-- ==== Sys2Proof/WellFormed.lean ====
section
/-!
DEFINITION. Which operations and which script lines are well formed. An operation's operands have the widths of R40 by
their types, so every `Instr` is well formed (R77: every operand value is legal). The checks with something to refuse
are those of the script syntax (R45).
-/

namespace Sys2Proof

/-- Every operation with operands of the widths of R40 is a request the unit executes (R47, R77). -/
def Instr.wellFormed (i : Instr) : Bool :=
  match i with
  | .raw _ => true
  | .constOne => true
  | .constZero => true
  | .constEpsilon => true
  | .constMaximum => true
  | .constMinimum => true
  | .fromint _ => true
  | .toint _ => true
  | .todbl _ => true
  | .add _ _ => true
  | .sub _ _ => true
  | .mul _ _ => true

/-- An operand of an operation other than `CONST` and `FROMINT`: a `hexword`, a `cname`, or a name assigned on an earlier
line (R45). `known` lists the names assigned so far. -/
def Operand.isValue (known : List Nat) (x : Operand) : Bool :=
  match x with
  | .hex _ => true
  | .cname _ => true
  | .temp k => known.contains k
  | .decimal _ => false

/-- The range of a `decimal` operand of `FROMINT` (R45). -/
def decimalInRange (n : Int) : Bool :=
  decide (-2147483648 ≤ n) && decide (n ≤ 2147483647)

/-- The operand count and operand kinds of each mnemonic (R45, R46). -/
def operandsWellFormed (known : List Nat) (m : Mnemonic) (x : Operand) (y : Option Operand) : Bool :=
  match m with
  | .raw | .toint | .todbl | .neg => x.isValue known && y.isNone
  | .const =>
    match x with
    | .cname _ => y.isNone
    | .hex _ | .temp _ | .decimal _ => false
  | .fromint =>
    match x with
    | .decimal n => decimalInRange n && y.isNone
    | .hex _ | .cname _ | .temp _ => x.isValue known && y.isNone
  | .add | .sub | .mul =>
    match y with
    | some z => x.isValue known && z.isValue known
    | none => false

/-- A name may be assigned once (R45). -/
def destWellFormed (known : List Nat) (dest : Option Nat) : Bool :=
  match dest with
  | none => true
  | some k => !known.contains k

/-- A line after lines that assigned `known` (R45). -/
def Line.wellFormed (known : List Nat) (l : Line) : Bool :=
  match l with
  | .op dest m x y => destWellFormed known dest && operandsWellFormed known m x y
  | .bits dest _ => destWellFormed known dest

/-- The name a line assigns, if any. -/
def Line.dest (l : Line) : Option Nat :=
  match l with
  | .op dest _ _ _ => dest
  | .bits dest _ => dest

/-- Every line of a script is well formed, each after the names the earlier lines assign (R45). -/
def scriptWellFormed (known : List Nat) (ls : List Line) : Bool :=
  match ls with
  | [] => true
  | l :: rest => l.wellFormed known && scriptWellFormed (l.dest.toList ++ known) rest

end Sys2Proof
end

