-- ==== Sys2Proof/Machine/Script.lean ====
section
/-!
DEFINITION. Scripts: assembling a line into its request word (R45, R46) and the run of a script by a host that issues a
line, waits for its response, takes it, and goes on (R97); and the end state of a run at the ports, whatever the host's
schedule. The temporaries are the host's (R13).
-/

namespace Sys2Proof.Machine

/-- The host-side names of a script and the results they stand for (R45). -/
abbrev Names := List (Nat × Word)

/-- The 64-bit word an operand stands for in an operation other than `CONST` and a decimal `FROMINT` (R45). -/
def operandWord (names : Names) (x : Operand) : Option Word :=
  match x with
  | .hex w => some w
  | .cname c => some (constWord c)
  | .temp k => names.lookup k
  | .decimal _ => none

/-- The selector of a constant: the document's order (R49). -/
def constSelector (c : ConstName) : Word :=
  match c with
  | .one => 0
  | .zero => 1
  | .epsilon => 2
  | .maximum => 3
  | .minimum => 4

/-- `a = zext_64(bv_32(n))` for a decimal operand of `FROMINT` in the range of R45. -/
def decimalWord (n : Int) : Option Word :=
  if decimalInRange n then some ((BitVec.ofInt 32 n).setWidth 64) else none

/-- The first operand of `FROMINT` (R45). -/
def fromIntWord (names : Names) (x : Operand) : Option Word :=
  match x with
  | .decimal n => decimalWord n
  | .hex _ | .cname _ | .temp _ => operandWord names x

/-- The operand of `CONST` (R45): a `cname`, encoded as its selector. -/
def constOperandWord (x : Operand) : Option Word :=
  match x with
  | .cname c => some (constSelector c)
  | .hex _ | .temp _ | .decimal _ => none

/-- A request with one operand: `b` is encoded as 0 (R45). -/
def unaryRequest (op : BitVec 4) (x : Option Word) (y : Option Operand) : Option ReqWord :=
  match x, y with
  | some a, none => some (packRequest op a 0)
  | some _, some _ => none
  | none, _ => none

/-- A request with two operands: the first goes to `a`, the second to `b` (R45). -/
def binaryRequest (op : BitVec 4) (names : Names) (x : Operand) (y : Option Operand) : Option ReqWord :=
  match operandWord names x, y.bind (operandWord names) with
  | some a, some b => some (packRequest op a b)
  | some _, none => none
  | none, _ => none

/-- `NEG x` is `SUB 0x0, x` (R46). -/
def negRequest (x : Option Word) (y : Option Operand) : Option ReqWord :=
  match x, y with
  | some b, none => some (packRequest 6 0 b)
  | some _, some _ => none
  | none, _ => none

/-- The request word of a line, once the names it uses have their results (R45, R46). -/
def assembleLine (names : Names) (l : Line) : Option ReqWord :=
  match l with
  | .bits _ w => some w
  | .op _ m x y =>
    match m with
    | .raw => unaryRequest 0 (operandWord names x) y
    | .const => unaryRequest 1 (constOperandWord x) y
    | .fromint => unaryRequest 2 (fromIntWord names x) y
    | .toint => unaryRequest 3 (operandWord names x) y
    | .todbl => unaryRequest 4 (operandWord names x) y
    | .add => binaryRequest 5 names x y
    | .sub => binaryRequest 6 names x y
    | .mul => binaryRequest 7 names x y
    | .neg => negRequest (operandWord names x) y

/-- One transaction as the host sees it: `issue`, the unit's step, `take` (R23). -/
def transact (w : ReqWord) (s : State) : Option (Response × State) :=
  match step (issue w s) with
  | .next t => (headResponse t.inflight).map fun r => (r, deliver t)
  | .fault _ => none
  | .refused _ => none

/-- How a run ends (R97). -/
inductive RunEnd where
  /-- Every request was answered with status 0: the named temporaries and the delivered responses, in order. -/
  | over (names : Names) (responses : List Response)
  /-- A faulted run: fault at this line with this status. -/
  | faulted (line : Nat) (status : BitVec 2)
  /-- The text is no script of R45, so the spec gives it no run: nothing of it is issued (the model's choice, log 15). -/
  | illFormed
  /-- The unit gave the line no response. -/
  | unanswered (line : Nat)
  deriving DecidableEq, Repr

/-- The names after a line whose response was `r` (R45). -/
def assignName (dest : Option Nat) (r : Word) (names : Names) : Names :=
  match dest with
  | none => names
  | some k => (k, r) :: names

/-- The rest of a run, from line number `n` on (R97): a response with a status other than 0 ends it. -/
def runFrom (n : Nat) (names : Names) (ls : List Line) (s : State) : RunEnd :=
  match ls with
  | [] => .over names s.delivered
  | l :: rest =>
    match assembleLine names l with
    | none => .illFormed
    | some w =>
      match transact w s with
      | none => .unanswered n
      | some (.ok r, t) => runFrom (n + 1) (assignName l.dest r names) rest t
      | some (.illegalOp, _) => .faulted n Response.illegalOp.status
      | some (.illegalConst, _) => .faulted n Response.illegalConst.status

/-- The run of a script, issued to the unit after a reset (R97) by the sequential host of log 15. R97 speaks of scripts of
R45 only; what a text with an ill-formed line does is open, and the model's choice is that it has no run: no line of it
is issued, not even those before the ill-formed one (DESIGN CHOICE, log 15). -/
def runScript (ls : List Line) : RunEnd :=
  if scriptWellFormed [] ls then runFrom 1 [] ls State.reset else .illFormed

/-- The end state of the lines from number `n` on in the machine `s`, given the requests accepted and the responses
delivered for them, in order (R97): each accepted request must be that of its line; the first response with a status
other than 0 ends the run; else every line's request must be accepted and its response delivered, and the run is over. R97 does not
say whether it is still over once the host presents a request beyond the script: the model's choice is that no request
may be accepted, in flight or held besides, while a faulted run keeps its end whatever follows (DESIGN CHOICE, log 6). -/
def endFrom (n : Nat) (names : Names) (ls : List Line) (accepted : List ReqWord) (delivered : List Response)
    (s : State) : Option RunEnd :=
  match ls, accepted, delivered with
  | [], [], [] => if s.inflight.isEmpty && s.held.isNone then some (.over names s.delivered) else none
  | l :: rest, w :: ws, r :: rs =>
    if assembleLine names l = some w then
      match r with
      | .ok x => endFrom (n + 1) (assignName l.dest x names) rest ws rs s
      | .illegalOp => some (.faulted n Response.illegalOp.status)
      | .illegalConst => some (.faulted n Response.illegalConst.status)
    else none
  | _, _, _ => none

/-- The end state that the run of a script has come to at a state of the machine, whatever host issued it, or `none`: the
run is not over, or it is no run of this script, or a reset cut it short (R97). The record starts again at a reset, so
a script cut short has an end state only if it is issued again from its first line, which is a run of its own. -/
def runEnd (ls : List Line) (s : State) : Option RunEnd :=
  if scriptWellFormed [] ls then endFrom 1 [] ls s.accepted s.delivered s else none

/-- A run is over when every request of the script has been accepted and every response delivered, with status 0, so that
nothing is in flight (R97; a request beyond the script: `endFrom`, log 6). -/
def runIsOver (ls : List Line) (s : State) : Bool :=
  match runEnd ls s with
  | some (.over _ _) => true
  | some (.faulted _ _) => false
  | some .illFormed => false
  | some (.unanswered _) => false
  | none => false

/-- A run is faulted when a response of it with a status other than 0 has been delivered (R97). -/
def runIsFaulted (ls : List Line) (s : State) : Bool :=
  match runEnd ls s with
  | some (.faulted _ _) => true
  | some (.over _ _) => false
  | some .illFormed => false
  | some (.unanswered _) => false
  | none => false

end Sys2Proof.Machine
end

