-- ==== Sys2Proof/Machine/ScriptText.lean ====
section
/-!
DEFINITION. The text of scripts (R45): the grammar of a line, comments, and the 33-digit spelling of a request word. What
R45 leaves open (blanks between tokens, the case of hexadecimal digits) is log 15.
-/

namespace Sys2Proof.Machine

/-- The value of a decimal digit. -/
def decimalDigit (c : Char) : Option Nat :=
  if '0' ≤ c ∧ c ≤ '9' then some (c.toNat - '0'.toNat) else none

/-- The value of a hexadecimal digit, of either case. -/
def hexDigit (c : Char) : Option Nat :=
  if 'A' ≤ c ∧ c ≤ 'F' then some (c.toNat - 'A'.toNat + 10)
  else if 'a' ≤ c ∧ c ≤ 'f' then some (c.toNat - 'a'.toNat + 10)
  else decimalDigit c

/-- The number spelled by digits, most significant first. -/
def readDigits (digit : Char → Option Nat) (base acc : Nat) (cs : List Char) : Option Nat :=
  match cs with
  | [] => some acc
  | c :: rest =>
    match digit c with
    | none => none
    | some d => readDigits digit base (acc * base + d) rest

/-- One or more decimal digits. -/
def readDecimal (cs : List Char) : Option Nat :=
  match cs with
  | [] => none
  | _ :: _ => readDigits decimalDigit 10 0 cs

/-- A `hexword` after its `0x`: 1 to 16 hexadecimal digits, zero-extended (R45). -/
def readHexWord (cs : List Char) : Option Word :=
  if 1 ≤ cs.length ∧ cs.length ≤ 16 then (readDigits hexDigit 16 0 cs).map (BitVec.ofNat 64) else none

/-- `cname` of R45. -/
def readConstName (cs : List Char) : Option ConstName :=
  if cs = "ONE".toList then some .one
  else if cs = "ZERO".toList then some .zero
  else if cs = "EPSILON".toList then some .epsilon
  else if cs = "MAXIMUM".toList then some .maximum
  else if cs = "MINIMUM".toList then some .minimum
  else none

/-- `mnemonic` of R45, and `NEG` of R46. -/
def readMnemonic (cs : List Char) : Option Mnemonic :=
  if cs = "RAW".toList then some .raw
  else if cs = "CONST".toList then some .const
  else if cs = "FROMINT".toList then some .fromint
  else if cs = "TOINT".toList then some .toint
  else if cs = "TODBL".toList then some .todbl
  else if cs = "ADD".toList then some .add
  else if cs = "SUB".toList then some .sub
  else if cs = "MUL".toList then some .mul
  else if cs = "NEG".toList then some .neg
  else none

/-- `name` of R45: `t` followed by decimal digits. -/
def readName (cs : List Char) : Option Nat :=
  match cs with
  | 't' :: ds => readDecimal ds
  | _ => none

/-- `operand` of R45. -/
def readOperand (cs : List Char) : Option Operand :=
  match cs with
  | '0' :: 'x' :: ds => (readHexWord ds).map .hex
  | 't' :: ds => (readDecimal ds).map .temp
  | '-' :: ds => (readDecimal ds).map fun n => .decimal (-(n : Int))
  | _ =>
    match readConstName cs with
    | some c => some (.cname c)
    | none => (readDecimal cs).map fun n => .decimal (n : Int)

/-- The tokens of a line. -/
inductive Token where
  | text (cs : List Char)
  | equals
  | comma
  deriving DecidableEq, Repr

/-- Text from `--` to the end of a line is a comment (R45). -/
def stripComment (cs : List Char) : List Char :=
  match cs with
  | [] => []
  | '-' :: '-' :: _ => []
  | c :: rest => c :: stripComment rest

/-- The pending characters, if any, as a token. `acc` holds them last first. -/
def flushToken (acc : List Char) : List Token :=
  match acc with
  | [] => []
  | _ :: _ => [.text acc.reverse]

/-- The tokens of a line without its comment; blanks separate tokens. -/
def tokenize (acc cs : List Char) : List Token :=
  match cs with
  | [] => flushToken acc
  | c :: rest =>
    if c = ' ' ∨ c = '\t' ∨ c = '\r' then flushToken acc ++ tokenize [] rest
    else if c = '=' then flushToken acc ++ .equals :: tokenize [] rest
    else if c = ',' then flushToken acc ++ .comma :: tokenize [] rest
    else tokenize (c :: acc) rest

/-- `mnemonic operand [ "," operand ]` (R45). -/
def parseOperation (dest : Option Nat) (ts : List Token) : Option Line :=
  match ts with
  | [.text m, .text x] =>
    match readMnemonic m, readOperand x with
    | some m, some x => some (.op dest m x none)
    | _, _ => none
  | [.text m, .text x, .comma, .text y] =>
    match readMnemonic m, readOperand x, readOperand y with
    | some m, some x, some y => some (.op dest m x (some y))
    | _, _, _ => none
  | _ => none

/-- `[ name "=" ] mnemonic operand [ "," operand ]` (R45). -/
def parseTokens (ts : List Token) : Option Line :=
  match ts with
  | .text n :: .equals :: rest =>
    match readName n with
    | some k => parseOperation (some k) rest
    | none => none
  | _ => parseOperation none ts

/-- A line of text as a line of a script (R45). The grammar of R45 has no empty line, and R45 does not say whether a line
that is blank or only a comment is skipped: the model's choice is that it is no line of a script, `none` as for any text
that the grammar does not give (DESIGN CHOICE, log 15). -/
def parseLine (cs : List Char) : Option Line :=
  parseTokens (tokenize [] (stripComment cs))

/-- A hexadecimal digit, in capitals as R45 writes them. -/
def spellDigit (n : Nat) : Char :=
  if n < 10 then Char.ofNat ('0'.toNat + n) else Char.ofNat ('A'.toNat + (n - 10))

/-- The last `count` hexadecimal digits of a number, most significant first. -/
def spellHex (count n : Nat) : List Char :=
  match count with
  | 0 => []
  | count + 1 => spellHex count (n / 16) ++ [spellDigit (n % 16)]

/-- The 33 hexadecimal digits of a request word, `op` then `a` then `b` (R45; R27: no storage order is implied). R45 says
33 digits, and its example puts `0x` before them: the model writes the bare digits (DESIGN CHOICE, log 15). -/
def spellRequest (w : ReqWord) : List Char :=
  spellHex 33 w.toNat

/-- The request word that 33 hexadecimal digits spell (R45), read bare as R45 says or with the `0x` of its example before
them (DESIGN CHOICE, log 15). -/
def readRequest (cs : List Char) : Option ReqWord :=
  if cs.length = 33 then (readDigits hexDigit 16 0 cs).map (BitVec.ofNat 132)
  else if cs.length = 35 ∧ cs.take 2 = ['0', 'x'] then (readDigits hexDigit 16 0 (cs.drop 2)).map (BitVec.ofNat 132)
  else none

end Sys2Proof.Machine
end

