-- ==== Sys2Proof/Safety.lean ====
section
/-!
DEFINITION. The terms claims use: the response the rules give a request, written as arithmetic on the numbers the words
stand for and apart from the machine's own computation (but for `TODBL`); what it is for the queue and the record of a
run to be right; and what a claim assumes of an operation's state.
-/

namespace Sys2Proof.Machine

/-- `Mag = floor((P + 2^31) / 2^32)` with `P = |s(x)| * |s(y)|` (R60, R70). -/
def roundedMagnitude (x y : Word) : Nat :=
  (x.toInt.natAbs * y.toInt.natAbs + 2 ^ 31) / 2 ^ 32

/-- The closed form of `MUL` (R60, R70). -/
def closedFormProduct (x y : Word) : Word :=
  if x.msb = y.msb then BitVec.ofNat 64 (roundedMagnitude x y)
  else BitVec.ofInt 64 (-(roundedMagnitude x y : Int))

/-- The response R49 gives a `CONST` request. -/
def constAnswer (sel : BitVec 3) : Response :=
  match sel.toNat with
  | 0 => .ok 0x0000000100000000
  | 1 => .ok 0x0000000000000000
  | 2 => .ok 0x0000000000000001
  | 3 => .ok 0x7FFFFFFFFFFFFFFF
  | 4 => .ok 0x8000000000000000
  | _ => .illegalConst

/-- The response the rules give a request word, from that word alone (R10, R39, R47): R48, R49, R50 (`s(r) = s(n) * 2^32`),
R51 (`floor(s(x) / 2^32)`), R52 (by the machine's own function), R56 and R57 by the signed reading, R60 by its value;
reserved codes by R78. -/
def answerOf (w : ReqWord) : Response :=
  let a := aField w
  let b := bField w
  match (opField w).toNat with
  | 0 => .ok a
  | 1 => constAnswer (selOperand a)
  | 2 => .ok (BitVec.ofInt 64 ((intOperand a).toInt * 2 ^ 32))
  | 3 => .ok (BitVec.ofInt 64 (Int.fdiv a.toInt (2 ^ 32)))
  | 4 => .ok (toDoubleResult a)
  | 5 => .ok (BitVec.ofInt 64 (a.toInt + b.toInt))
  | 6 => .ok (BitVec.ofInt 64 (a.toInt - b.toInt))
  | 7 => .ok (closedFormProduct a b)
  | _ => .illegalOp

/-- A request has its response only if every older one has (the unit answers the oldest first; log 11). -/
def answeredInOrder (q : List Entry) : Prop :=
  q.Pairwise fun older newer => newer.rsp.isSome → older.rsp.isSome

/-- What every step keeps: the queue has at most `MAX_INFLIGHT` entries (R24); it is answered from its head on; a
response in it is the one the rules give its own request (R10); the requests accepted since the last reset are those
delivered followed by those in flight; and the k-th delivered response is that of the k-th accepted request (R32). -/
structure UnitInv (s : State) : Prop where
  room : s.inflight.length ≤ Config.maxInflight
  ordered : answeredInOrder s.inflight
  honest : ∀ e ∈ s.inflight, ∀ r, e.rsp = some r → r = answerOf e.req
  pending : s.accepted.drop s.delivered.length = s.inflight.map Entry.req
  returned : s.delivered = (s.accepted.take s.delivered.length).map answerOf

/-- `i` answers the oldest waiting request with `r`, in its place in the queue, and changes nothing else of the machine:
no other entry, no held request, no coming edge, nothing of the record (R10, R15, R82). It answers a next state wherever
a request waits. -/
def AnswersWith (i : Instr) (r : Response) : Prop :=
  ∀ (s : State) (pre post : List Entry) (w : ReqWord),
    s.inflight = pre ++ { req := w, rsp := none } :: post → (∀ e ∈ pre, e.rsp.isSome) →
      exec i s = .next { s with inflight := pre ++ { req := w, rsp := some r } :: post }

/-- The state is about to take the unit's own step, no clock edge before it, and the oldest request without a response is
`w`, after `pre` and before `post`. -/
def Waits (s : State) (pre : List Entry) (w : ReqWord) (post : List Entry) : Prop :=
  s.edges = [] ∧ s.inflight = pre ++ { req := w, rsp := none } :: post ∧ ∀ e ∈ pre, e.rsp.isSome

/-- The same state with the response of `w` in its place. -/
def answered (s : State) (pre : List Entry) (w : ReqWord) (r : Response) (post : List Entry) : State :=
  { s with inflight := pre ++ { req := w, rsp := some r } :: post }

/-- The bits of a request word that decide the operation `i` and its operands: those R37 and R40 name for it. The others
are the ignored bits of R41. -/
def namedBits (i : Instr) : ReqWord :=
  match i with
  | .raw _ => packRequest 0xF 0xFFFFFFFFFFFFFFFF 0
  | .constOne => packRequest 0xF 0x7 0
  | .constZero => packRequest 0xF 0x7 0
  | .constEpsilon => packRequest 0xF 0x7 0
  | .constMaximum => packRequest 0xF 0x7 0
  | .constMinimum => packRequest 0xF 0x7 0
  | .fromint _ => packRequest 0xF 0x00000000FFFFFFFF 0
  | .toint _ => packRequest 0xF 0xFFFFFFFFFFFFFFFF 0
  | .todbl _ => packRequest 0xF 0xFFFFFFFFFFFFFFFF 0
  | .add _ _ => packRequest 0xF 0xFFFFFFFFFFFFFFFF 0xFFFFFFFFFFFFFFFF
  | .sub _ _ => packRequest 0xF 0xFFFFFFFFFFFFFFFF 0xFFFFFFFFFFFFFFFF
  | .mul _ _ => packRequest 0xF 0xFFFFFFFFFFFFFFFF 0xFFFFFFFFFFFFFFFF

/-- `q(w) = s(w) / 2^32` (R7, R11). -/
def fixedValue (w : Word) : ℚ :=
  (w.toInt : ℚ) / 2 ^ 32

/-- The field `E` of a binary64 pattern (R53). -/
def doubleExponent (r : Word) : Nat :=
  (r.extractLsb' 52 11).toNat

/-- The field `frac` of a binary64 pattern (R53). -/
def doubleFraction (r : Word) : Nat :=
  (r.extractLsb' 0 52).toNat

/-- A normal binary64 pattern: `1 <= E <= 2046` (R53). -/
def isNormalDouble (r : Word) : Prop :=
  1 ≤ doubleExponent r ∧ doubleExponent r ≤ 2046

/-- The value of a normal binary64 pattern, `(-1)^sign * 2^(E - 1023) * (1 + frac / 2^52)` (R53). -/
def normalDoubleValue (r : Word) : ℚ :=
  (if r.msb then -1 else 1) * 2 ^ ((doubleExponent r : ℤ) - 1023) * (1 + (doubleFraction r : ℚ) / 2 ^ 52)

/-- An edge at which the host presents nothing, is ready to take a response, and the unit finishes a request. -/
def quietEdge : Edge :=
  { rst := false, reqValid := false, reqOp := 0, reqA := 0, reqB := 0, rspReady := true, unitReady := false,
    unitAnswers := true }

/-- How many requests of a queue have no response yet. -/
def pendingCount (q : List Entry) : Nat :=
  (q.filter fun e => e.rsp.isNone).length

end Sys2Proof.Machine
end

