-- ==== Sys2Proof/Certificates/Slice0/Obligations.lean ====
section
/-!
DEFINITION. The statements for the provers, from the numbered rules of spec/. `AnswersWith i r` (Safety.lean) says that
`i` answers a next state wherever a request waits, with response `r`, and changes nothing else of the machine.
-/

open Sys2Proof Sys2Proof.Machine

/-! ## Encoding -/

/-- Decoding the canonical request word of an operation gives it back, whatever its operands (R39, R40, R47). -/
def Obligations.DecodeInvertsEncode : Prop :=
  ∀ i : Instr, i.wellFormed = true → decode (encode i) = .ok i

/-- A request word decodes to an operation exactly when its named bits are those of the operation's canonical word: no
named bit is dropped, every other bit is ignored (R40, R41). -/
def Obligations.DecodeReadsExactlyTheNamedBits : Prop :=
  ∀ (w : ReqWord) (i : Instr), decode w = .ok i ↔ w &&& namedBits i = encode i

/-- Every request word is exactly one of: a defined operation, `IllegalOp`, `IllegalConst` (R44, R47). -/
def Obligations.DecodeIsTotal : Prop :=
  ∀ w : ReqWord,
    (decode w = .error (.illegalOp (opField w)) ↔ 8 ≤ (opField w).toNat) ∧
    (decode w = .error (.illegalConst (selOperand (aField w))) ↔
      (opField w).toNat = 1 ∧ 5 ≤ (selOperand (aField w)).toNat) ∧
    ((∃ i, decode w = .ok i) ↔
      (opField w).toNat < 8 ∧ ((opField w).toNat = 1 → (selOperand (aField w)).toNat < 5)) ∧
    (∀ t, decode w = .error t → t = .illegalOp (opField w) ∨ t = .illegalConst (selOperand (aField w)))

/-- Words written out from R37 to R40, one a family, decode to the operation they stand for. -/
def Obligations.SampleWordsDecode : Prop :=
  decode 0x000000001800000000000000000000000 = .ok (.raw 0x180000000) ∧
  decode 0x1FFFFFFFFFFFFFFF80000000000000000 = .ok .constOne ∧
  decode 0x2DEADBEEF000000020000000000000000 = .ok (.fromint 2) ∧
  decode 0x600000001000000000000000180000000 = .ok (.sub 0x100000000 0x180000000) ∧
  decode 0x7FFFFFFFC000000000000000500000000 = .ok (.mul 0xFFFFFFFC00000000 0x500000000) ∧
  decode 0x900000002000000000000000300000000 = .error (.illegalOp 9)

/-- The 33-digit spelling of a request word reads back as it (R45; that it is the bare digits is the model's choice,
log 15). -/
def Obligations.RequestSpellingReadsBack : Prop :=
  ∀ w : ReqWord, (spellRequest w).length = 33 ∧ readRequest (spellRequest w) = some w

/-- The wires of a response: status 0, 1 or 2 by its kind, 0 as the result of an error, never status 3 (R38). -/
def Obligations.ResponseWordFields : Prop :=
  ∀ r : Response,
    r.word.extractLsb' 64 2 = r.status ∧ r.word.extractLsb' 0 64 = r.wire ∧
    (r.status = 0 ↔ ∃ x, r = .ok x) ∧ (r.status = 1 ↔ r = .illegalOp) ∧ (r.status = 2 ↔ r = .illegalConst) ∧
    r.status ≠ 3 ∧ (∀ x, r = .ok x → r.wire = x) ∧ (r.status ≠ 0 → r.wire = 0)

/-! ## The step -/

/-- A step runs the decoded operation: at once where no clock edge is listed, and at a clock edge that finishes a request,
between the acceptance and the delivery of that edge (that order within an edge is the model's choice, log 1 and 2). -/
def Obligations.StepRunsDecodedInstruction : Prop :=
  (∀ (s : State) (w : ReqWord) (i : Instr),
    s.edges = [] → oldestPending s.inflight = some w → decode w = .ok i → step s = exec i s) ∧
  (∀ (s t : State) (e : Edge) (rest : List Edge) (w : ReqWord) (i : Instr),
    s.edges = e :: rest → e.rst = false → e.unitAnswers = true → requestHeld e s = true →
    oldestPending (acceptAtEdge e { s with edges := rest }).inflight = some w → decode w = .ok i →
    exec i (acceptAtEdge e { s with edges := rest }) = .next t →
      step s = .next (deliverAtEdge e t))

/-- A request placed where the machine takes its next one is the one the next step runs (the model's log 8). -/
def Obligations.PlacedRequestRunsNext : Prop :=
  ∀ (s : State) (nbits w : Nat) (i : Instr), decodeTableWord nbits w = some i →
    step (s.withFetchWord nbits w) = exec i (s.withFetchWord nbits w)

/-- The unit's step answers the oldest waiting request, whatever its 132 bits, with the response the rules give
that word (`answerOf`: arithmetic on the numbers the words stand for, apart from the machine's own computation; only for
`TODBL` it is the machine's own result, of which `ToDblIsNearestTiesToEven` says what it is), and changes nothing else
(R10, R39, R47). -/
def Obligations.StepAnswersAsTheRulesSay : Prop :=
  ∀ (s : State) (pre post : List Entry) (w : ReqWord), Waits s pre w post →
    step s = .next (answered s pre w (answerOf w) post)

/-- With no request pending the unit idles: its step changes nothing (R81, R90). -/
def Obligations.UnitIdlesWithoutRequest : Prop :=
  ∀ s : State, s.edges = [] → (∀ e ∈ s.inflight, e.rsp.isSome) → step s = .next s

/-- An operation executed where no request waits answers a next state and changes nothing: the model's choice, log 10. -/
def Obligations.ExecWithoutRequestChangesNothing : Prop :=
  ∀ (i : Instr) (s : State), (∀ e ∈ s.inflight, e.rsp.isSome) → exec i s = .next s

/-- The machine never faults, and refuses exactly where the host withdraws or changes a request it has asserted and that is
not accepted; everywhere else it answers a next state (R23 item 2, U16; that the model stops there by a refusal,
and that an edge with `rst = 1` releases the request, are the model's choice, log 5). -/
def Obligations.StepStopsOnlyOnWithdrawnRequest : Prop :=
  ∀ s : State,
    (∀ f, step s ≠ .fault f) ∧
    (∀ r, step s = .refused r ↔ r = .requestNotHeld ∧
      ∃ e rest w, s.edges = e :: rest ∧ e.rst = false ∧ s.held = some w ∧
        ¬(e.reqValid = true ∧ packRequest e.reqOp e.reqA e.reqB = w)) ∧
    ((∃ t, step s = .next t) ↔ ∀ r, step s ≠ .refused r)

/-! ## Exceptions -/

/-- `IllegalOp`: a request with `u(op) >= 8`, and no other request, is answered with status 1 and `r = 0` (R78). -/
def Obligations.ReservedOpIsAnsweredIllegalOp : Prop :=
  ∀ (s : State) (pre post : List Entry) (w : ReqWord), Waits s pre w post →
    ∃ r, step s = .next (answered s pre w r post) ∧
      (r.status = 1 ↔ 8 ≤ (opField w).toNat) ∧ (8 ≤ (opField w).toNat → r.wire = 0)

/-- `IllegalConst`: a request with `u(op) = 1` and `u(a[2:0]) >= 5`, and nothing else, is answered with status 2 and
`r = 0` (R79). -/
def Obligations.ReservedSelectorIsAnsweredIllegalConst : Prop :=
  ∀ (s : State) (pre post : List Entry) (w : ReqWord), Waits s pre w post →
    ∃ r, step s = .next (answered s pre w r post) ∧
      (r.status = 2 ↔ (opField w).toNat = 1 ∧ 5 ≤ ((aField w).extractLsb' 0 3).toNat) ∧
      ((opField w).toNat = 1 ∧ 5 ≤ ((aField w).extractLsb' 0 3).toNat → r.wire = 0)

/-- The defined operations raise nothing: on any operand values, with a selector 0 to 4 for `CONST`, status 0 (R77). -/
def Obligations.DefinedOperationsRaiseNothing : Prop :=
  ∀ (s : State) (pre post : List Entry) (w : ReqWord), Waits s pre w post →
    (opField w).toNat < 8 → ((opField w).toNat = 1 → (selOperand (aField w)).toNat < 5) →
      ∃ r, step s = .next (answered s pre w r post) ∧ r.status = 0

/-- Taking an exception changes nothing but the offending request's response: a request behind it is then answered as if
nothing had happened (R82, R84). -/
def Obligations.ExceptionLeavesLaterRequests : Prop :=
  ∀ (s : State) (pre post : List Entry) (bad w : ReqWord) (t : Trap),
    Waits s pre bad ({ req := w, rsp := none } :: post) → decode bad = .error t →
      ∃ u, step s = .next u ∧ step u =
        .next { s with inflight := pre ++ { req := bad, rsp := some (trapResponse t) } ::
          { req := w, rsp := some (answerOf w) } :: post }

/-! ## Construction and conversion -/

/-- `RAW`: the identity on 64-bit patterns; `b` is ignored (R48). -/
def Obligations.RawReturnsItsOperand : Prop :=
  (∀ w : ReqWord, opField w = 0 → decode w = .ok (.raw (aField w))) ∧ ∀ x : Word, AnswersWith (.raw x) (.ok x)

/-- `CONST`: selectors 0 to 4 give the five constants, 5 to 7 raise `IllegalConst`; `a[63:3]` and `b` are ignored
(R49). -/
def Obligations.ConstReturnsNamedConstants : Prop :=
  AnswersWith .constOne (.ok 0x0000000100000000) ∧ AnswersWith .constZero (.ok 0x0000000000000000) ∧
  AnswersWith .constEpsilon (.ok 0x0000000000000001) ∧ AnswersWith .constMaximum (.ok 0x7FFFFFFFFFFFFFFF) ∧
  AnswersWith .constMinimum (.ok 0x8000000000000000) ∧
  (∀ w : ReqWord, opField w = 1 →
    ((aField w).extractLsb' 0 3 = 0 → decode w = .ok .constOne) ∧
    ((aField w).extractLsb' 0 3 = 1 → decode w = .ok .constZero) ∧
    ((aField w).extractLsb' 0 3 = 2 → decode w = .ok .constEpsilon) ∧
    ((aField w).extractLsb' 0 3 = 3 → decode w = .ok .constMaximum) ∧
    ((aField w).extractLsb' 0 3 = 4 → decode w = .ok .constMinimum)) ∧
  (∀ (s : State) (pre post : List Entry) (w : ReqWord), Waits s pre w post →
    opField w = 1 → 5 ≤ ((aField w).extractLsb' 0 3).toNat →
      step s = .next (answered s pre w .illegalConst post))

/-- `FROMINT`: `{n, 0x00000000}`, the signed integer times `2^32`, exactly; `a[63:32]` and `b` are ignored (R50). -/
def Obligations.FromIntIsExact : Prop :=
  (∀ w : ReqWord, opField w = 2 → decode w = .ok (.fromint ((aField w).extractLsb' 0 32))) ∧
  ∀ n : HalfLimb, ∃ r, AnswersWith (.fromint n) (.ok r) ∧ r = n.signExtend 64 <<< 32 ∧
    r = (n ++ (0 : HalfLimb) : BitVec 64) ∧ r.toInt = n.toInt * 2 ^ 32 ∧ fixedValue r = n.toInt

/-- `TOINT`: the floor of the value, sign-extended; `b` is ignored (R51). -/
def Obligations.ToIntIsFloor : Prop :=
  (∀ w : ReqWord, opField w = 3 → decode w = .ok (.toint (aField w))) ∧
  ∀ x : Word, ∃ r, AnswersWith (.toint x) (.ok r) ∧ r = x.sshiftRight 32 ∧
    r = (x.extractLsb' 32 32).signExtend 64 ∧ r.toInt = Int.fdiv x.toInt (2 ^ 32) ∧
    r.toInt = ⌊fixedValue x⌋

/-- `from_integer(n).to_int32() == n` for every 32-bit `n`, and the 64-bit result is its sign extension (R54 item 1). -/
def Obligations.FromIntThenToIntRoundTrips : Prop :=
  ∀ n : HalfLimb, ∃ r, AnswersWith (.fromint n) (.ok r) ∧
    AnswersWith (.toint r) (.ok (n.signExtend 64)) ∧ (n.signExtend 64).extractLsb' 0 32 = n

/-- `TODBL` of a non-zero value is a normal binary64 number with the value's sign, no normal binary64 number is
nearer to the value, and where another is equally near the result's fraction is even; 0 gives +0.0 (R52, R53; the
rounding rests on decision D12, log 13). -/
def Obligations.ToDblIsNearestTiesToEven : Prop :=
  AnswersWith (.todbl 0) (.ok 0) ∧
  ∀ x : Word, x ≠ 0 → ∃ r, AnswersWith (.todbl x) (.ok r) ∧ isNormalDouble r ∧ r.msb = x.msb ∧
    ∀ d : Word, isNormalDouble d → d ≠ r →
      |normalDoubleValue r - fixedValue x| ≤ |normalDoubleValue d - fixedValue x| ∧
      (|normalDoubleValue r - fixedValue x| = |normalDoubleValue d - fixedValue x| → doubleFraction r % 2 = 0)

/-- The biased exponent of a non-zero `TODBL` result is 991 to 1054: never a NaN, an infinity, a subnormal or a zero
(R52). -/
def Obligations.ToDblExponentRange : Prop :=
  ∀ x : Word, x ≠ 0 → ∃ r, AnswersWith (.todbl x) (.ok r) ∧ 991 ≤ doubleExponent r ∧ doubleExponent r ≤ 1054

/-- `TODBL` is exact on values with `|s(x)| <= 2^53`, and on every result of `FROMINT` (R52, R54 item 3). -/
def Obligations.ToDblIsExactWhenItFits : Prop :=
  (∀ x : Word, x ≠ 0 → x.toInt.natAbs ≤ 2 ^ 53 →
    ∃ r, AnswersWith (.todbl x) (.ok r) ∧ normalDoubleValue r = fixedValue x) ∧
  (∀ n : HalfLimb, n ≠ 0 → ∃ x r, AnswersWith (.fromint n) (.ok x) ∧ AnswersWith (.todbl x) (.ok r) ∧
    normalDoubleValue r = n.toInt)

/-! ## Addition and subtraction -/

/-- `ADD`: the sum modulo `2^64`, by the unsigned and by the signed reading, exact where it fits, else wrapped by `2^64`;
commutative, with `ZERO` its identity and `ADD x, x = x << 1` (R56). -/
def Obligations.AddWraps : Prop :=
  (∀ w : ReqWord, opField w = 5 → decode w = .ok (.add (aField w) (bField w))) ∧
  ∀ x y : Word, ∃ r, AnswersWith (.add x y) (.ok r) ∧ AnswersWith (.add y x) (.ok r) ∧
    r = BitVec.ofNat 64 (x.toNat + y.toNat) ∧ r = BitVec.ofInt 64 (x.toInt + y.toInt) ∧
    (-2 ^ 63 ≤ x.toInt + y.toInt ∧ x.toInt + y.toInt ≤ 2 ^ 63 - 1 →
      r.toInt = x.toInt + y.toInt ∧ fixedValue r = fixedValue x + fixedValue y) ∧
    (2 ^ 63 - 1 < x.toInt + y.toInt → r.toInt = x.toInt + y.toInt - 2 ^ 64) ∧
    (x.toInt + y.toInt < -2 ^ 63 → r.toInt = x.toInt + y.toInt + 2 ^ 64) ∧
    (y = 0 → r = x) ∧ (y = x → r = x <<< 1)

/-- `SUB`: the difference modulo `2^64`, by the unsigned and by the signed reading and as the sum with the negation, exact
where it fits, else wrapped by `2^64`; `SUB y, x` is its negation, `x - x` is `ZERO`, `ZERO - x` is `neg_64(x)`
(R57). -/
def Obligations.SubWraps : Prop :=
  (∀ w : ReqWord, opField w = 6 → decode w = .ok (.sub (aField w) (bField w))) ∧
  ∀ x y : Word, ∃ r, AnswersWith (.sub x y) (.ok r) ∧ AnswersWith (.sub y x) (.ok (-r)) ∧
    r = BitVec.ofInt 64 ((x.toNat : Int) - y.toNat) ∧ r = BitVec.ofInt 64 (x.toInt - y.toInt) ∧ r = x + -y ∧
    (-2 ^ 63 ≤ x.toInt - y.toInt ∧ x.toInt - y.toInt ≤ 2 ^ 63 - 1 →
      r.toInt = x.toInt - y.toInt ∧ fixedValue r = fixedValue x - fixedValue y) ∧
    (2 ^ 63 - 1 < x.toInt - y.toInt → r.toInt = x.toInt - y.toInt - 2 ^ 64) ∧
    (x.toInt - y.toInt < -2 ^ 63 → r.toInt = x.toInt - y.toInt + 2 ^ 64) ∧
    (y = 0 → r = x) ∧ (y = x → r = 0) ∧ (x = 0 → r = -y)

/-- The laws of addition and subtraction: additive inverse, associativity, and exactness on integers whose sum or
difference fits in 32 bits (R59 items 1 to 3). -/
def Obligations.AddSubLaws : Prop :=
  (∀ x y : Word, ∃ r, AnswersWith (.add x y) (.ok r) ∧ AnswersWith (.sub r y) (.ok x)) ∧
  (∀ x y : Word, ∃ r, AnswersWith (.sub x y) (.ok r) ∧ AnswersWith (.add r y) (.ok x)) ∧
  (∀ x y z : Word, ∃ p q r, AnswersWith (.add x y) (.ok p) ∧ AnswersWith (.add y z) (.ok q) ∧
    AnswersWith (.add p z) (.ok r) ∧ AnswersWith (.add x q) (.ok r)) ∧
  (∀ m n : HalfLimb, -2 ^ 31 ≤ m.toInt + n.toInt → m.toInt + n.toInt ≤ 2 ^ 31 - 1 →
    ∃ x y r, AnswersWith (.fromint m) (.ok x) ∧ AnswersWith (.fromint n) (.ok y) ∧
      AnswersWith (.add x y) (.ok r) ∧ AnswersWith (.fromint (BitVec.ofInt 32 (m.toInt + n.toInt))) (.ok r)) ∧
  (∀ m n : HalfLimb, -2 ^ 31 ≤ m.toInt - n.toInt → m.toInt - n.toInt ≤ 2 ^ 31 - 1 →
    ∃ x y r, AnswersWith (.fromint m) (.ok x) ∧ AnswersWith (.fromint n) (.ok y) ∧
      AnswersWith (.sub x y) (.ok r) ∧ AnswersWith (.fromint (BitVec.ofInt 32 (m.toInt - n.toInt))) (.ok r))

/-- The script's `NEG x` is `SUB 0x0, x`; its result is `neg_64(x)`; `NEG MINIMUM` is `MINIMUM` and `NEG ZERO` is `ZERO`
(R46). -/
def Obligations.NegIsSubtractionFromZero : Prop :=
  (∀ (names : Names) (dest : Option Nat) (x : Operand) (v : Word), operandWord names x = some v →
    assembleLine names (.op dest .neg x none) = some (packRequest 6 0 v) ∧
    assembleLine names (.op dest .neg x none) = assembleLine names (.op dest .sub (.hex 0) (some x)) ∧
    decode (packRequest 6 0 v) = .ok (.sub 0 v)) ∧
  (∀ v : Word, AnswersWith (.sub 0 v) (.ok (neg64 v))) ∧
  AnswersWith (.sub 0 0x8000000000000000) (.ok 0x8000000000000000) ∧ AnswersWith (.sub 0 0) (.ok 0)

/-! ## Multiplication, step by step -/

/-- Step 1: the magnitudes are the absolute values, read as unsigned (that of `MINIMUM` is `2^63`), and the sign is the
exclusive or of the operands' bits 63 (R61). -/
def Obligations.SignsAndMagnitudes : Prop :=
  ∀ x y : Word, (magnitude x).toNat = x.toInt.natAbs ∧ (magnitude x).toNat ≤ 2 ^ 63 ∧
    magnitude x = (if x.getLsbD 63 then -x else x) ∧
    resultIsNegative x y = (x.getLsbD 63 ^^ y.getLsbD 63)

/-- Step 2: the half-limbs of a magnitude (R62). -/
def Obligations.HalfLimbsOfMagnitude : Prop :=
  ∀ x : Word, (highHalf (magnitude x)).toNat * 2 ^ 32 + (lowHalf (magnitude x)).toNat = (magnitude x).toNat ∧
    (highHalf (magnitude x)).toNat ≤ 2 ^ 31 ∧
    ((highHalf (magnitude x)).toNat = 2 ^ 31 ↔ (magnitude x).toNat = 2 ^ 63) ∧
    ((highHalf (magnitude x)).toNat = 2 ^ 31 → lowHalf (magnitude x) = 0)

/-- Step 3: the cross-products are exact and sum, in their columns, to the product; each half is a quotient and a
remainder by `2^32`, the quotient at most `2^32 - 2` (R63). -/
def Obligations.CrossProductsAreExact : Prop :=
  ∀ a b : Word, let c := crossProducts a b
    c.d.toNat = (lowHalf a).toNat * (lowHalf b).toNat ∧ c.e.toNat = (lowHalf a).toNat * (highHalf b).toNat ∧
    c.f.toNat = (highHalf a).toNat * (lowHalf b).toNat ∧ c.g.toNat = (highHalf a).toNat * (highHalf b).toNat ∧
    a.toNat * b.toNat = c.g.toNat * 2 ^ 64 + (c.e.toNat + c.f.toNat) * 2 ^ 32 + c.d.toNat ∧
    ∀ v ∈ [c.d, c.e, c.f, c.g], v.toNat ≤ (2 ^ 32 - 1) ^ 2 ∧ (highHalf v).toNat = v.toNat / 2 ^ 32 ∧
      (lowHalf v).toNat = v.toNat % 2 ^ 32 ∧ (highHalf v).toNat ≤ 2 ^ 32 - 2

/-- Step 4: the carry of the middle column is fully drained: `sum` and `carry` are the remainder and the quotient of
`sum0` by `2^32`, the loop needs at most two iterations, and `carry = 2` occurs (R64). -/
def Obligations.MiddleCarryIsFullyDrained : Prop :=
  (∀ a b : Word, let c := crossProducts a b
    middleSum c ≤ 3 * 2 ^ 32 - 4 ∧
    (middleColumn c).1.toNat = middleSum c % 2 ^ 32 ∧ (middleColumn c).2.toNat = middleSum c / 2 ^ 32 ∧
    middleSum c = (middleColumn c).2.toNat * 2 ^ 32 + (middleColumn c).1.toNat ∧
    (middleColumn c).2.toNat ≤ 2 ∧ ∀ fuel, 2 ≤ fuel → drainCarry fuel (middleSum c) 0 = drainCarry 2 (middleSum c) 0) ∧
  (middleColumn (crossProducts 0x00000001FFFFFFFF 0x00000001FFFFFFFF)) = (0xFFFFFFFC, 2)

/-- Steps 1 to 6: the WideProduct is the exact product of the magnitudes with the sign apart; `low` is `{sum, d0}`,
neither reduction of step 5 discards anything, and `high` is at most `2^62` (R65, R66, R19). -/
def Obligations.WideProductIsExact : Prop :=
  ∀ x y : Word, let p := wideMultiply x y; let c := crossProducts (magnitude x) (magnitude y)
    wideMagnitude p = x.toInt.natAbs * y.toInt.natAbs ∧ p.isNegative = (x.msb ^^ y.msb) ∧
    p.low = ((middleColumn c).1 ++ lowHalf c.d : BitVec 64) ∧ p.high.toNat ≤ 2 ^ 62 ∧
    (p.high.toNat = 2 ^ 62 → x = 0x8000000000000000 ∧ y = 0x8000000000000000 ∧ p.low = 0)

/-- Step 7: `result_raw` is the 64 bits of the magnitude that straddle the binary point (R67). -/
def Obligations.RescaleTakesTheMiddle : Prop :=
  ∀ p : WideProduct, rescale p = (p.high.extractLsb' 0 32 ++ p.low.extractLsb' 32 32 : BitVec 64) ∧
    (rescale p).toNat = wideMagnitude p / 2 ^ 32 % 2 ^ 64

/-- Step 8: the rounding adds 1, modulo `2^64`, exactly when bit 31 of `low` is set; with step 7 it rounds the magnitude
half up (R68). -/
def Obligations.RoundingIsHalfUp : Prop :=
  (∀ raw low : Word, low.getLsbD 31 = true → roundMagnitude raw low = raw + 1) ∧
  (∀ raw low : Word, low.getLsbD 31 = false → roundMagnitude raw low = raw) ∧
  ∀ p : WideProduct,
    (roundMagnitude (rescale p) p.low).toNat = (wideMagnitude p + 2 ^ 31) / 2 ^ 32 % 2 ^ 64

/-- Step 9: `MUL` responds with the negation modulo `2^64` of the rounded magnitude when `is_negative`, else with it; a
zero magnitude gives `ZERO` (R69). -/
def Obligations.SignIsReattached : Prop :=
  ∀ x y : Word, let p := wideMultiply x y; let raw := roundMagnitude (rescale p) p.low
    (p.isNegative = true → AnswersWith (.mul x y) (.ok (-raw))) ∧
    (p.isNegative = false → AnswersWith (.mul x y) (.ok raw)) ∧
    (raw = 0 → AnswersWith (.mul x y) (.ok 0))

/-- `MUL`: the nine steps over half-limbs give the exact product of the magnitudes, rounded half up, with the
sign reattached modulo `2^64` (R60). -/
def Obligations.MulIsRoundedProduct : Prop :=
  (∀ w : ReqWord, opField w = 7 → decode w = .ok (.mul (aField w) (bField w))) ∧
  ∀ x y : Word, ∃ r, AnswersWith (.mul x y) (.ok r) ∧
    (let p := wideMultiply x y; r = reattachSign true p.isNegative (roundMagnitude (rescale p) p.low)) ∧
    (let mag := (x.toInt.natAbs * y.toInt.natAbs + 2 ^ 31) / 2 ^ 32
     (x.getLsbD 63 = y.getLsbD 63 ∨ mag = 0 → r = BitVec.ofNat 64 mag) ∧
     (x.getLsbD 63 ≠ y.getLsbD 63 → r = BitVec.ofInt 64 (-(mag : Int))))

/-- Where the rounded product fits, `MUL` is correctly rounded: within half an `EPSILON` of the exact product, and a tie
goes away from zero (R70, R73 item 8). -/
def Obligations.MulIsCorrectlyRounded : Prop :=
  ∀ x y : Word,
    let mag := (x.toInt.natAbs * y.toInt.natAbs + 2 ^ 31) / 2 ^ 32
    (x.msb = y.msb → mag ≤ 2 ^ 63 - 1) → (x.msb ≠ y.msb → mag ≤ 2 ^ 63) →
      ∃ r, AnswersWith (.mul x y) (.ok r) ∧
        |fixedValue r - fixedValue x * fixedValue y| ≤ 1 / 2 ^ 33 ∧
        (|fixedValue r - fixedValue x * fixedValue y| = 1 / 2 ^ 33 →
          |fixedValue x * fixedValue y| < |fixedValue r|)

/-- Overflow is never reported: whatever the product, `MUL` responds with status 0 and the rounded product modulo `2^64`
(R72). -/
def Obligations.MulOverflowWraps : Prop :=
  ∀ x y : Word, ∃ r, AnswersWith (.mul x y) (.ok r) ∧
    (r.toInt - (if x.msb = y.msb then (1 : Int) else -1) *
      (((x.toInt.natAbs * y.toInt.natAbs + 2 ^ 31) / 2 ^ 32 : Nat) : Int)) % 2 ^ 64 = 0

/-- The laws of multiplication: `ONE` is an identity on both sides, for `MINIMUM` too; `ZERO` absorbs; the operation
commutes (R73 items 1, 2, 4, 6). -/
def Obligations.MulIdentityZeroCommute : Prop :=
  (∀ x : Word, AnswersWith (.mul x 0x0000000100000000) (.ok x) ∧ AnswersWith (.mul 0x0000000100000000 x) (.ok x)) ∧
  (∀ x : Word, AnswersWith (.mul x 0) (.ok 0) ∧ AnswersWith (.mul 0 x) (.ok 0)) ∧
  (∀ (x y : Word) (s : State), exec (.mul x y) s = exec (.mul y x) s)

/-- Sign consistency, with its exceptions at `MINIMUM`: negating an operand other than `MINIMUM` negates the product;
negating both keeps it, unless exactly one is `MINIMUM`, when it negates it (R73 item 5, C8). -/
def Obligations.MulSignConsistency : Prop :=
  ∀ x y : Word, ∃ r, AnswersWith (.mul x y) (.ok r) ∧
    (x ≠ 0x8000000000000000 → AnswersWith (.mul (-x) y) (.ok (-r))) ∧
    (x = 0x8000000000000000 → AnswersWith (.mul (-x) y) (.ok r)) ∧
    ((x = 0x8000000000000000 ↔ y = 0x8000000000000000) → AnswersWith (.mul (-x) (-y)) (.ok r)) ∧
    (¬(x = 0x8000000000000000 ↔ y = 0x8000000000000000) → AnswersWith (.mul (-x) (-y)) (.ok (-r)))

/-- Integer multiplication agreement: for 32-bit integers whose product fits in 32 bits, the product of their Q32 values
is the Q32 value of the product, and converts back to it (R73 item 3). -/
def Obligations.MulAgreesOnIntegers : Prop :=
  ∀ m n : HalfLimb, -2 ^ 31 ≤ m.toInt * n.toInt → m.toInt * n.toInt ≤ 2 ^ 31 - 1 →
    ∃ x y r k, AnswersWith (.fromint m) (.ok x) ∧ AnswersWith (.fromint n) (.ok y) ∧ AnswersWith (.mul x y) (.ok r) ∧
      AnswersWith (.fromint (BitVec.ofInt 32 (m.toInt * n.toInt))) (.ok r) ∧ AnswersWith (.toint r) (.ok k) ∧
      k.toInt = m.toInt * n.toInt

/-- The reference path, which does not negate, is the rounded magnitude modulo `2^64`, and agrees with this hardware
exactly when the signs agree or `Mag mod 2^64` is 0 or `2^63` (R75). -/
def Obligations.ReferencePathDiffersBySign : Prop :=
  ∀ x y : Word, let mag := (x.toInt.natAbs * y.toInt.natAbs + 2 ^ 31) / 2 ^ 32
    mulResultWith false x y = BitVec.ofNat 64 mag ∧ AnswersWith (.mul x y) (.ok (mulResultWith true x y)) ∧
    (mulResultWith false x y = mulResultWith true x y ↔
      x.getLsbD 63 = y.getLsbD 63 ∨ mag % 2 ^ 64 = 0 ∨ mag % 2 ^ 64 = 2 ^ 63)

/-- `is_big` says that the 128-bit magnitude does not fit a signed 64-bit integer (R21). -/
def Obligations.IsBigMeansAtLeastTwoTo63 : Prop :=
  ∀ p : WideProduct, isBig p = true ↔ 2 ^ 63 ≤ wideMagnitude p

/-- The bounds of the intermediate values, every one that R71 lists (`withinBounds`), hold of every request. -/
def Obligations.MulBounds : Prop :=
  ∀ x y : Word, withinBounds x y

/-! ## The ports, reset and runs -/

/-- An edge with `rst = 1`: nothing is accepted or delivered, `req_ready` and `rsp_valid` are 0, and the in-flight queue is
emptied. That the record and the held request start again is the model's choice, log 5 and 6 (R25, R91, R92). -/
def Obligations.ResetEdgeEmptiesTheQueue : Prop :=
  ∀ (s : State) (e : Edge) (rest : List Edge), s.edges = e :: rest → e.rst = true →
    step s = .next { State.reset with edges := rest } ∧ portsAt e s = { reqReady := false, rsp := none }

/-- At an edge with `rst = 0`, a request is accepted exactly when `req_valid = 1` and `req_ready = 1`, a response is
delivered exactly when `rsp_valid = 1` and `rsp_ready = 1`, the queue changes by just these, and a request presented and
not accepted is remembered (R23 items 1, 2, 4; the fields `held`, `accepted` and `delivered` are the model's own, log 5
and 6). -/
def Obligations.EdgeFollowsTheHandshake : Prop :=
  ∀ (s t : State) (e : Edge) (rest : List Edge), s.edges = e :: rest → e.rst = false → step s = .next t →
    let o := portsAt e s
    let taken := if e.reqValid && o.reqReady then [packRequest e.reqOp e.reqA e.reqB] else []
    let given := if e.rspReady then o.rsp.toList else []
    t.accepted = s.accepted ++ taken ∧ t.delivered = s.delivered ++ given ∧
    t.inflight.map Entry.req = (s.inflight.map Entry.req ++ taken).drop given.length ∧
    t.held = (if e.reqValid && !o.reqReady then some (packRequest e.reqOp e.reqA e.reqB) else none) ∧ t.edges = rest

/-- An edge at which a request is presented, and nothing else happens: it joins the queue when the unit is ready and has
room, else it is held (R23 items 1, 2, 6; the fields `held` and `accepted` are the model's own, log 5 and 6). -/
def Obligations.PresentedRequestJoinsOrIsHeld : Prop :=
  ∀ (s : State) (e : Edge) (rest : List Edge), s.edges = e :: rest → e.rst = false → e.reqValid = true →
    e.rspReady = false → e.unitAnswers = false →
    (∀ w, s.held = some w → packRequest e.reqOp e.reqA e.reqB = w) →
    (e.unitReady = true ∧ s.inflight.length < Config.maxInflight →
      step s = .next { s with
        inflight := s.inflight ++ [{ req := packRequest e.reqOp e.reqA e.reqB, rsp := none }],
        accepted := s.accepted ++ [packRequest e.reqOp e.reqA e.reqB], held := none, edges := rest }) ∧
    (¬(e.unitReady = true ∧ s.inflight.length < Config.maxInflight) →
      step s = .next { s with held := some (packRequest e.reqOp e.reqA e.reqB), edges := rest })

/-- `req_ready` is 1 only with `rst = 0` and fewer than `MAX_INFLIGHT` requests accepted and undelivered (R23 item 6,
R25). -/
def Obligations.ReadyOnlyWithRoom : Prop :=
  ∀ (e : Edge) (s : State), (portsAt e s).reqReady = true →
    e.rst = false ∧ s.inflight.length < Config.maxInflight

/-- Once a response is valid it stays valid and the same until it is delivered, whatever the later edge (R23 item 4). -/
def Obligations.ResponseIsHeldUntilDelivered : Prop :=
  ∀ (s t : State) (e e' : Edge) (rest : List Edge) (r : Response), s.edges = e :: rest → e.rst = false →
    e.rspReady = false → (portsAt e s).rsp = some r → step s = .next t → e'.rst = false →
      (portsAt e' t).rsp = some r

/-- The state after reset satisfies the invariant, and nothing is in flight (R25). -/
def Obligations.ResetSatisfiesTheInvariant : Prop :=
  UnitInv State.reset ∧ State.reset.inflight = []

/-- Headline. Every step keeps the invariant: the queue within `MAX_INFLIGHT`, answered in order and as the rules say,
the requests accepted are those delivered and those in flight, and the k-th response is that of the k-th request
(R10, R24, R32; that a request is answered only after every older one is the model's choice, log 11). -/
def Obligations.StepKeepsTheInvariant : Prop :=
  ∀ s t : State, UnitInv s → step s = .next t → UnitInv t

/-- On every schedule of clock edges after reset, whatever the latencies, the host's readiness and the resets:
the responses delivered since the last reset are, in order, those the rules give the requests accepted since, and once
nothing is in flight they answer all of them (R23 item 3, R32). -/
def Obligations.EveryScheduleReturnsInOrder : Prop :=
  ∀ (n : Nat) (es : List Edge) (t : State), Sys2Proof.core.run n { State.reset with edges := es } = .next t →
    t.delivered = (t.accepted.take t.delivered.length).map answerOf ∧
    t.accepted.length = t.delivered.length + t.inflight.length ∧ t.inflight.length ≤ Config.maxInflight ∧
    (t.inflight = [] → t.delivered = t.accepted.map answerOf)

/-- Two schedules that accept the same requests deliver the same responses, once nothing is in flight: the timing
changes no response (R32 item 1). -/
def Obligations.TimingDoesNotChangeResponses : Prop :=
  ∀ (n m : Nat) (es fs : List Edge) (t u : State),
    Sys2Proof.core.run n { State.reset with edges := es } = .next t →
    Sys2Proof.core.run m { State.reset with edges := fs } = .next u →
    t.accepted = u.accepted → t.inflight = [] → u.inflight = [] → t.delivered = u.delivered

/-- The unit makes progress: as many of its steps as requests wait answer all of them, and no more happens (R96). -/
def Obligations.EveryPendingRequestIsAnswered : Prop :=
  ∀ s : State, s.edges = [] →
    Sys2Proof.core.run (pendingCount s.inflight) s =
      .next { s with inflight := s.inflight.map fun e => { e with rsp := some (e.rsp.getD (answerOf e.req)) } }

/-- With a host that is ready to take and a unit that finishes, as many edges as requests in flight deliver a response to
each of them, in order, and empty the queue (R23 item 3, R96). That so many edges are enough rests on the model's choice
that a request is finished and its response delivered within one edge, in that order (DESIGN CHOICE, log 2). -/
def Obligations.QuietEdgesDrainTheQueue : Prop :=
  ∀ (s : State) (rest : List Edge), s.held = none → s.edges = List.replicate s.inflight.length quietEdge ++ rest →
    Sys2Proof.core.run s.inflight.length s =
      .next { s with
        inflight := [], edges := rest,
        delivered := s.delivered ++ s.inflight.map fun e => e.rsp.getD (answerOf e.req) }

/-- A well-formed script of operation lines, run by the model's sequential host (`runScript`; DESIGN CHOICE, log 15, whose
`NEG` and `cname` forms are among the well-formed lines), is never a faulted run: it ends with one response a line
(R45, R77, R97). -/
def Obligations.WellFormedScriptNeverFaults : Prop :=
  ∀ ls : List Line, scriptWellFormed [] ls = true → (∀ l ∈ ls, ∀ d w, l ≠ .bits d w) →
    ∃ names rs, runScript ls = .over names rs ∧ rs.length = ls.length

/-- Under the fairness R96 asks of the unit (`UnitIsFair`; a single step leaves those choices free, log 2 and 4), with a
host that takes the responses and no reset: every request accepted at some edge is answered, in order and as the rules
say, and its response delivered after finitely many edges, and a held request is accepted after finitely many edges
(R96). -/
def Obligations.UnitMakesProgress : Prop :=
  ∀ (schedule : Nat → Edge) (t : Nat → State), Executes schedule t → NeverReset schedule → UnitIsFair schedule t →
    HostTakes schedule t →
    (∀ n, ∃ m, n ≤ m ∧
      ((t n).delivered ++ (t n).inflight.map fun e => e.rsp.getD (answerOf e.req)) <+: (t m).delivered) ∧
    (∀ n w, (t n).held = some w →
      ∃ m, n ≤ m ∧ (t (m + 1)).accepted = (t m).accepted ++ [w] ∧ (t (m + 1)).held = none)

/-- Where a state of the machine that meets the invariant is the end of a script's run, by whatever host and schedule, that
end is the one of the sequential host's run (R32 item 1, R97; the sequential host, and which states count as the end, are the model's choice, log 15 and 6): over
with the same temporaries and responses, or faulted at the same line with the same status. -/
def Obligations.EveryRunEndsAsTheSequentialRun : Prop :=
  ∀ (ls : List Line) (t : State) (e : RunEnd), UnitInv t → runEnd ls t = some e → runScript ls = e

/-- A run cut short by a reset has no end state (R97): after an edge with `rst = 1` no script with a line has one, is over
or is faulted, whatever had been accepted and delivered (the record that says so is the model's, log 6). -/
def Obligations.ResetLeavesNoEndState : Prop :=
  ∀ (s t : State) (e : Edge) (rest : List Edge) (ls : List Line), s.edges = e :: rest → e.rst = true →
    step s = .next t → ls ≠ [] → runEnd ls t = none ∧ runIsOver ls t = false ∧ runIsFaulted ls t = false
end

