-- ==== Sys2Proof/Laws/Exec.lean ====
section
/-!
SUPPORT. What `exec` does with each operation: the response it puts into the oldest unanswered entry.
-/

namespace Sys2Proof.Machine

variable (x y : Word) (n : HalfLimb) (s : State)

theorem exec_raw : exec (.raw x) s = .next (respond (.ok x) s) := rfl
theorem exec_constOne : exec .constOne s = .next (respond (.ok (constWord .one)) s) := rfl
theorem exec_constZero : exec .constZero s = .next (respond (.ok (constWord .zero)) s) := rfl
theorem exec_constEpsilon : exec .constEpsilon s = .next (respond (.ok (constWord .epsilon)) s) := rfl
theorem exec_constMaximum : exec .constMaximum s = .next (respond (.ok (constWord .maximum)) s) := rfl
theorem exec_constMinimum : exec .constMinimum s = .next (respond (.ok (constWord .minimum)) s) := rfl
theorem exec_fromint : exec (.fromint n) s = .next (respond (.ok (fromIntResult n)) s) := rfl
theorem exec_toint : exec (.toint x) s = .next (respond (.ok (toIntResult x)) s) := rfl
theorem exec_todbl : exec (.todbl x) s = .next (respond (.ok (toDoubleResult x)) s) := rfl
theorem exec_add : exec (.add x y) s = .next (respond (.ok (addResult x y)) s) := rfl
theorem exec_sub : exec (.sub x y) s = .next (respond (.ok (subResult x y)) s) := rfl
theorem exec_mul : exec (.mul x y) s = .next (respond (.ok (mulResult x y)) s) := rfl

/-- The result of `MUL` with the parameter of this hardware put in. -/
theorem mulResult_eq :
    mulResult x y =
      reattachSign true (wideMultiply x y).isNegative
        (roundMagnitude (rescale (wideMultiply x y)) (wideMultiply x y).low) := by
  simp only [mulResult, mulResultWith, Config.signReattach]

end Sys2Proof.Machine
end

