-- ==== Sys2Proof/Laws/Words.lean ====
section
/-!
SUPPORT. The words of a multiplication as numbers: half-limbs, limb products, the carry loop, the fields of a
binary64 pattern, the fields of a request.
-/

namespace Sys2Proof.Machine

theorem highHalf_toNat (w : Word) : (highHalf w).toNat = w.toNat / 2 ^ 32 := by
  have := w.isLt
  simp only [highHalf, BitVec.extractLsb'_toNat, Nat.shiftRight_eq_div_pow]
  omega

theorem lowHalf_toNat (w : Word) : (lowHalf w).toNat = w.toNat % 2 ^ 32 := by
  simp [lowHalf, BitVec.extractLsb'_toNat]

/-- A product of two half-limbs is exact (R63). -/
theorem limbProduct_toNat (p q : HalfLimb) : (limbProduct p q).toNat = p.toNat * q.toNat := by
  have h : p.toNat * q.toNat ≤ (2 ^ 32 - 1) * (2 ^ 32 - 1) :=
    Nat.mul_le_mul (by have := p.isLt; omega) (by have := q.isLt; omega)
  simp only [limbProduct, BitVec.toNat_ofNat]
  exact Nat.mod_eq_of_lt (by omega)

/-- The carry loop with enough fuel divides (R64). -/
theorem drainCarry_eq (fuel sum carry : Nat) (h : sum < (fuel + 1) * 2 ^ 32) :
    drainCarry fuel sum carry = (sum % 2 ^ 32, carry + sum / 2 ^ 32) := by
  induction fuel generalizing sum carry with
  | zero => simp only [drainCarry, Prod.mk.injEq]; omega
  | succ fuel ih =>
    unfold drainCarry
    split
    · rw [ih (sum - 2 ^ 32) (carry + 1) (by omega)]
      simp only [Prod.mk.injEq]
      omega
    · simp only [Prod.mk.injEq]
      omega

/-- A binary64 pattern as a number (R53). -/
theorem packDouble_toNat (sign : Bool) (e frac : Nat) :
    (packDouble sign e frac).toNat = sign.toNat * 2 ^ 63 + (e % 2 ^ 11 * 2 ^ 52 + frac % 2 ^ 52) := by
  have h1 : frac % 2 ^ 52 < 2 ^ 52 := Nat.mod_lt _ (by positivity)
  have h2 : e % 2 ^ 11 * 2 ^ 52 + frac % 2 ^ 52 < 2 ^ 63 := by omega
  unfold packDouble
  rw [BitVec.toNat_append, BitVec.toNat_append, BitVec.toNat_ofNat, BitVec.toNat_ofNat,
    ← Nat.shiftLeft_add_eq_or_of_lt h1]
  simp only [Nat.shiftLeft_eq, BitVec.toNat_ofBool]
  rw [← Nat.shiftLeft_eq sign.toNat, ← Nat.shiftLeft_add_eq_or_of_lt h2]

end Sys2Proof.Machine

namespace Sys2Proof

/-- A request word as a number (R37). -/
theorem packRequest_toNat (op : BitVec 4) (a b : Word) :
    (packRequest op a b).toNat = op.toNat * 2 ^ 128 + (a.toNat * 2 ^ 64 + b.toNat) := by
  have hb := b.isLt
  have hab : a.toNat * 2 ^ 64 + b.toNat < 2 ^ 128 := by
    have := a.isLt
    omega
  rw [packRequest, BitVec.toNat_append, BitVec.toNat_append, ← Nat.shiftLeft_add_eq_or_of_lt hb]
  simp only [Nat.shiftLeft_eq]
  rw [← Nat.shiftLeft_eq op.toNat, ← Nat.shiftLeft_add_eq_or_of_lt hab]

theorem opField_toNat (w : ReqWord) : (opField w).toNat = w.toNat / 2 ^ 128 := by
  have := w.isLt
  simp only [opField, BitVec.extractLsb'_toNat, Nat.shiftRight_eq_div_pow]
  omega

theorem aField_toNat (w : ReqWord) : (aField w).toNat = w.toNat / 2 ^ 64 % 2 ^ 64 := by
  simp [aField, BitVec.extractLsb'_toNat, Nat.shiftRight_eq_div_pow]

theorem bField_toNat (w : ReqWord) : (bField w).toNat = w.toNat % 2 ^ 64 := by
  simp [bField, BitVec.extractLsb'_toNat]

@[simp] theorem opField_packRequest (op : BitVec 4) (a b : Word) : opField (packRequest op a b) = op := by
  apply BitVec.eq_of_toNat_eq
  rw [opField_toNat, packRequest_toNat]
  have := a.isLt
  have := b.isLt
  omega

@[simp] theorem aField_packRequest (op : BitVec 4) (a b : Word) : aField (packRequest op a b) = a := by
  apply BitVec.eq_of_toNat_eq
  rw [aField_toNat, packRequest_toNat]
  have := a.isLt
  have := b.isLt
  omega

@[simp] theorem bField_packRequest (op : BitVec 4) (a b : Word) : bField (packRequest op a b) = b := by
  apply BitVec.eq_of_toNat_eq
  rw [bField_toNat, packRequest_toNat]
  have := a.isLt
  have := b.isLt
  omega

/-- A request word is its three fields (R37). -/
theorem packRequest_fields (w : ReqWord) : packRequest (opField w) (aField w) (bField w) = w := by
  apply BitVec.eq_of_toNat_eq
  rw [packRequest_toNat, opField_toNat, aField_toNat, bField_toNat]
  omega

/-- The fields of a canonical request word (R39 to R41). -/
theorem encode_fields (i : Instr) :
    opField (encode i) = opCode i ∧ aField (encode i) = aOperand i ∧ bField (encode i) = bOperand i :=
  ⟨opField_packRequest _ _ _, aField_packRequest _ _ _, bField_packRequest _ _ _⟩

end Sys2Proof
end

