-- ==== Sys2Proof/Laws/PerInstr.lean ====
section
/-!
SUPPORT. A statement made for each operation: its canonical request word is well formed and carries its row's operation
code, selector and ignored bits (R39 to R41).
-/

namespace Sys2Proof.Laws.CanonicalFields

/-- The operation is well formed, and the fields of its request word are its code and its canonical operands. -/
def Statement (i : Instr) : Prop :=
  i.wellFormed = true ∧ opField (encode i) = opCode i ∧ aField (encode i) = aOperand i ∧ bField (encode i) = bOperand i

theorem raw (x : Word) : Statement (.raw x) := ⟨rfl, encode_fields _⟩
theorem constOne : Statement .constOne := ⟨rfl, encode_fields _⟩
theorem constZero : Statement .constZero := ⟨rfl, encode_fields _⟩
theorem constEpsilon : Statement .constEpsilon := ⟨rfl, encode_fields _⟩
theorem constMaximum : Statement .constMaximum := ⟨rfl, encode_fields _⟩
theorem constMinimum : Statement .constMinimum := ⟨rfl, encode_fields _⟩
theorem fromint (n : HalfLimb) : Statement (.fromint n) := ⟨rfl, encode_fields _⟩
theorem toint (x : Word) : Statement (.toint x) := ⟨rfl, encode_fields _⟩
theorem todbl (x : Word) : Statement (.todbl x) := ⟨rfl, encode_fields _⟩
theorem add (x y : Word) : Statement (.add x y) := ⟨rfl, encode_fields _⟩
theorem sub (x y : Word) : Statement (.sub x y) := ⟨rfl, encode_fields _⟩
theorem mul (x y : Word) : Statement (.mul x y) := ⟨rfl, encode_fields _⟩

end Sys2Proof.Laws.CanonicalFields
end

