-- ==== Sys2Proof/Laws/Queue.lean ====
section
/-!
SUPPORT. The in-flight queue: where the oldest unanswered request stands, and what answering it changes.
-/

namespace Sys2Proof.Machine

/-- The shape of a queue with an unanswered request: answered entries, then it. -/
theorem oldestPending_eq_some (q : List Entry) (w : ReqWord) (h : oldestPending q = some w) :
    ∃ pre post, q = pre ++ { req := w, rsp := none } :: post ∧ ∀ e ∈ pre, e.rsp.isSome := by
  induction q with
  | nil => simp [oldestPending] at h
  | cons e rest ih =>
    obtain ⟨eq, er⟩ := e
    cases er with
    | none =>
      simp only [oldestPending, Option.some.injEq] at h
      exact ⟨[], rest, by simp [h], by simp⟩
    | some r =>
      obtain ⟨pre, post, hq, hp⟩ := ih (by simpa [oldestPending] using h)
      exact ⟨⟨eq, some r⟩ :: pre, post, by simp [hq], by simpa using hp⟩

/-- The request after a run of answered entries is the oldest unanswered one. -/
theorem oldestPending_append (pre post : List Entry) (w : ReqWord) (h : ∀ e ∈ pre, e.rsp.isSome) :
    oldestPending (pre ++ { req := w, rsp := none } :: post) = some w := by
  induction pre with
  | nil => rfl
  | cons e rest ih =>
    obtain ⟨r, hr⟩ := Option.isSome_iff_exists.mp (h e (by simp))
    simpa [oldestPending, hr] using ih fun e he => h e (by simp [he])

/-- No request waits exactly when every entry is answered. -/
theorem oldestPending_eq_none_iff (q : List Entry) :
    oldestPending q = none ↔ ∀ e ∈ q, e.rsp.isSome := by
  induction q with
  | nil => simp [oldestPending]
  | cons e rest ih =>
    obtain ⟨eq, er⟩ := e
    cases er with
    | none => simp [oldestPending]
    | some r => simp [oldestPending, ih]

/-- Answering changes the oldest unanswered entry and no other. -/
theorem answerOldest_append (r : Response) (pre post : List Entry) (w : ReqWord) (h : ∀ e ∈ pre, e.rsp.isSome) :
    answerOldest r (pre ++ { req := w, rsp := none } :: post) = pre ++ { req := w, rsp := some r } :: post := by
  induction pre with
  | nil => rfl
  | cons e rest ih =>
    obtain ⟨r', hr⟩ := Option.isSome_iff_exists.mp (h e (by simp))
    simpa [answerOldest, hr] using ih fun e he => h e (by simp [he])

/-- With every entry answered, answering changes nothing. -/
theorem answerOldest_of_answered (r : Response) (q : List Entry) (h : ∀ e ∈ q, e.rsp.isSome) :
    answerOldest r q = q := by
  induction q with
  | nil => rfl
  | cons e rest ih =>
    obtain ⟨r', hr⟩ := Option.isSome_iff_exists.mp (h e (by simp))
    simpa [answerOldest, hr] using ih fun e he => h e (by simp [he])

@[simp] theorem answerOldest_length (r : Response) (q : List Entry) : (answerOldest r q).length = q.length := by
  induction q with
  | nil => rfl
  | cons e rest ih => cases h : e.rsp <;> simp [answerOldest, h, ih]

@[simp] theorem answerOldest_map_req (r : Response) (q : List Entry) :
    (answerOldest r q).map Entry.req = q.map Entry.req := by
  induction q with
  | nil => rfl
  | cons e rest ih => cases h : e.rsp <;> simp [answerOldest, h, ih]

/-- A request placed in a queue is its oldest unanswered one. -/
@[simp] theorem oldestPending_placeInQueue (w : ReqWord) (q : List Entry) :
    oldestPending (placeInQueue w q) = some w := by
  induction q with
  | nil => rfl
  | cons e rest ih => cases h : e.rsp <;> simp [placeInQueue, oldestPending, h, ih]

/-- An answer to the oldest unanswered request, as a whole state. -/
theorem respond_eq (r : Response) (s : State) (pre post : List Entry) (w : ReqWord)
    (hq : s.inflight = pre ++ { req := w, rsp := none } :: post) (h : ∀ e ∈ pre, e.rsp.isSome) :
    respond r s = { s with inflight := pre ++ { req := w, rsp := some r } :: post } := by
  simp [respond, hq, answerOldest_append r pre post w h]

/-- With nothing to answer, `respond` changes nothing. -/
theorem respond_of_answered (r : Response) (s : State) (h : oldestPending s.inflight = none) : respond r s = s := by
  simp [respond, answerOldest_of_answered r _ ((oldestPending_eq_none_iff _).mp h)]

end Sys2Proof.Machine
end

