-- ==== Sys2Proof/Laws/State.lean ====
section
/-!
SUPPORT. What each operation of Machine/Ops.lean does to each field of State: one lemma per field per update.
-/

namespace Sys2Proof.Machine

variable (s : State) (r : Response) (t : Trap) (w : ReqWord)

@[simp] theorem respond_inflight : (respond r s).inflight = answerOldest r s.inflight := rfl
@[simp] theorem respond_held : (respond r s).held = s.held := rfl
@[simp] theorem respond_edges : (respond r s).edges = s.edges := rfl
@[simp] theorem respond_accepted : (respond r s).accepted = s.accepted := rfl
@[simp] theorem respond_delivered : (respond r s).delivered = s.delivered := rfl

@[simp] theorem raise_inflight : (raise t s).inflight = answerOldest (trapResponse t) s.inflight := rfl
@[simp] theorem raise_held : (raise t s).held = s.held := rfl
@[simp] theorem raise_edges : (raise t s).edges = s.edges := rfl
@[simp] theorem raise_accepted : (raise t s).accepted = s.accepted := rfl
@[simp] theorem raise_delivered : (raise t s).delivered = s.delivered := rfl

@[simp] theorem issue_inflight : (issue w s).inflight = s.inflight ++ [{ req := w, rsp := none }] := rfl
@[simp] theorem issue_held : (issue w s).held = s.held := rfl
@[simp] theorem issue_edges : (issue w s).edges = s.edges := rfl
@[simp] theorem issue_accepted : (issue w s).accepted = s.accepted ++ [w] := rfl
@[simp] theorem issue_delivered : (issue w s).delivered = s.delivered := rfl

@[simp] theorem clear_inflight : (clear s).inflight = [] := rfl
@[simp] theorem clear_held : (clear s).held = none := rfl
@[simp] theorem clear_edges : (clear s).edges = s.edges := rfl
@[simp] theorem clear_accepted : (clear s).accepted = [] := rfl
@[simp] theorem clear_delivered : (clear s).delivered = [] := rfl

@[simp] theorem placeRequest_inflight : (placeRequest w s).inflight = placeInQueue w s.inflight := rfl
@[simp] theorem placeRequest_held : (placeRequest w s).held = s.held := rfl
@[simp] theorem placeRequest_edges : (placeRequest w s).edges = [] := rfl
@[simp] theorem placeRequest_accepted : (placeRequest w s).accepted = s.accepted := rfl
@[simp] theorem placeRequest_delivered : (placeRequest w s).delivered = s.delivered := rfl

@[simp] theorem reset_inflight : State.reset.inflight = [] := rfl
@[simp] theorem reset_held : State.reset.held = none := rfl
@[simp] theorem reset_edges : State.reset.edges = [] := rfl
@[simp] theorem reset_accepted : State.reset.accepted = [] := rfl
@[simp] theorem reset_delivered : State.reset.delivered = [] := rfl

/-- A delivery takes the oldest entry and records its response, or, with no valid response, does nothing. -/
theorem deliver_eq : deliver s = s ∧ headResponse s.inflight = none ∨
    ∃ e q r, s.inflight = e :: q ∧ e.rsp = some r ∧
      deliver s = { s with inflight := q, delivered := s.delivered ++ [r] } := by
  cases hq : s.inflight with
  | nil => left; simp [deliver, headResponse, hq]
  | cons e q =>
    cases hr : e.rsp with
    | none => left; simp [deliver, headResponse, hq, hr]
    | some r => exact .inr ⟨e, q, r, rfl, hr, by simp [deliver, headResponse, hq, hr]⟩

@[simp] theorem deliver_held : (deliver s).held = s.held := by
  unfold deliver; split <;> rfl
@[simp] theorem deliver_edges : (deliver s).edges = s.edges := by
  unfold deliver; split <;> rfl
@[simp] theorem deliver_accepted : (deliver s).accepted = s.accepted := by
  unfold deliver; split <;> rfl

end Sys2Proof.Machine
end

