-- ==== Sys2Proof/Laws/Step.lean ====
section
/-!
SUPPORT. Everything a step can do, said once: `exec` only answers the oldest unanswered request, and a clock edge is a
reset, a refusal, or an acceptance followed by an answer followed by a delivery.
-/

namespace Sys2Proof.Machine

/-- Every operation ends in `respond(0, r)` for an `r` that does not depend on the state (R10, R77). -/
theorem exec_responds (i : Instr) : ∃ r, ∀ s, exec i s = .next (respond (.ok r) s) := by
  cases i <;> exact ⟨_, fun _ => rfl⟩

/-- The unit's step answers the oldest unanswered request, with a response that depends on that request alone. -/
theorem serve_responds (w : ReqWord) :
    ∃ r, ∀ s, oldestPending s.inflight = some w → serve s = .next (respond r s) := by
  cases hd : decode w with
  | ok i =>
    obtain ⟨r, hr⟩ := exec_responds i
    exact ⟨.ok r, fun s h => by simp [serve, h, hd, hr]⟩
  | error t => exact ⟨trapResponse t, fun s h => by simp [serve, h, hd, raise]⟩

/-- With no request pending the unit idles (R90). -/
theorem serve_of_none (s : State) (h : oldestPending s.inflight = none) : serve s = .next s := by
  simp [serve, h]

/-- The unit's step always answers a next state, which is `respond` of some response. -/
theorem serve_eq (s : State) : ∃ r, serve s = .next (respond r s) := by
  cases h : oldestPending s.inflight with
  | none => exact ⟨.illegalOp, by rw [serve_of_none s h, respond_of_answered _ s h]⟩
  | some w =>
    obtain ⟨r, hr⟩ := serve_responds w
    exact ⟨r, hr s h⟩

/-- What the request channel does at an edge with `rst = 0`: accept, hold, or nothing. -/
theorem acceptAtEdge_eq (e : Edge) (s : State) :
    (e.reqValid = true ∧ reqReady e s = true ∧ acceptAtEdge e s = { issue (portRequest e) s with held := none }) ∨
    (e.reqValid = true ∧ reqReady e s = false ∧ acceptAtEdge e s = { s with held := some (portRequest e) }) ∨
    (e.reqValid = false ∧ acceptAtEdge e s = { s with held := none }) := by
  unfold acceptAtEdge
  cases h : e.reqValid <;> cases h2 : reqReady e s <;> simp

/-- The request channel does not look at the coming edges. -/
theorem acceptAtEdge_edges (e : Edge) (s : State) (es : List Edge) :
    acceptAtEdge e { s with edges := es } = { acceptAtEdge e s with edges := es } := by
  have h : reqReady e { s with edges := es } = reqReady e s := rfl
  unfold acceptAtEdge
  rw [h]
  split <;> (try split) <;> rfl

/-- What the response channel does at an edge with `rst = 0`: deliver the head's response, or nothing. -/
theorem deliverAtEdge_eq (e : Edge) (s : State) :
    deliverAtEdge e s = s ∨
      ∃ x q r, s.inflight = x :: q ∧ x.rsp = some r ∧
        deliverAtEdge e s = { s with inflight := q, delivered := s.delivered ++ [r] } := by
  unfold deliverAtEdge
  split
  · rcases deliver_eq s with ⟨h, -⟩ | h
    · exact .inl h
    · exact .inr h
  · exact .inl rfl

/-- The unit raises `req_ready` only outside reset and with room. -/
theorem reqReady_room (e : Edge) (s : State) (h : reqReady e s = true) :
    e.rst = false ∧ e.unitReady = true ∧ s.inflight.length < Config.maxInflight := by
  simpa [reqReady, hasRoom, and_assoc] using h

/-- The work at an edge answers at most one request. -/
theorem answerAtEdge_eq (e : Edge) (s : State) :
    answerAtEdge e s = .next s ∨ e.unitAnswers = true ∧ answerAtEdge e s = serve s := by
  cases h : e.unitAnswers <;> simp [answerAtEdge, h]

/-- What an edge can do, when it answers a next state. -/
theorem clockEdge_next (e : Edge) (s t : State) (h : clockEdge e s = .next t) :
    e.rst = true ∧ t = clear s ∨
      e.rst = false ∧ requestHeld e s = true ∧
        ∃ u, answerAtEdge e (acceptAtEdge e s) = .next u ∧ t = deliverAtEdge e u := by
  unfold clockEdge at h
  split at h
  · next hr => exact .inl ⟨hr, by simpa using h.symm⟩
  · next hr =>
    split at h
    · next hh =>
      obtain ⟨r, hs⟩ := serve_eq (acceptAtEdge e s)
      rcases answerAtEdge_eq e (acceptAtEdge e s) with ha | ⟨-, ha⟩
      · rw [ha] at h
        exact .inr ⟨by simpa using hr, hh, _, ha, by simpa using h.symm⟩
      · rw [ha, hs] at h
        exact .inr ⟨by simpa using hr, hh, _, ha.trans hs, by simpa using h.symm⟩
    · simp at h

/-- What a step can do, when it answers a next state. -/
theorem step_next (s t : State) (h : step s = .next t) :
    s.edges = [] ∧ serve s = .next t ∨
      ∃ e rest, s.edges = e :: rest ∧ clockEdge e { s with edges := rest } = .next t := by
  unfold step advance at h
  split at h
  · next he => exact .inl ⟨he, h⟩
  · next e rest he => exact .inr ⟨e, rest, he, h⟩

/-- A run of any machine, one step taken off. -/
theorem run_succ_of_next (M : Host.Core) (n : Nat) (s t : M.State) (h : M.step s = .next t) :
    M.run (n + 1) s = M.run n t := by
  simp only [Host.Core.run, h]

/-- The first step of a run of any machine that answers a next state. -/
theorem run_succ_next (M : Host.Core) (n : Nat) (s t : M.State) (h : M.run (n + 1) s = .next t) :
    ∃ u, M.step s = .next u ∧ M.run n u = .next t := by
  simp only [Host.Core.run] at h
  split at h
  · next u hu => exact ⟨u, hu, h⟩
  · simp at h
  · simp at h

/-- A run of this machine, one step taken off. -/
theorem core_run_succ (n : Nat) (s t : State) (h : step s = .next t) :
    Sys2Proof.core.run (n + 1) s = Sys2Proof.core.run n t :=
  run_succ_of_next Sys2Proof.core n s t h

/-- The first step of a run of this machine that answers a next state. -/
theorem core_run_succ_next (n : Nat) (s t : State) (h : Sys2Proof.core.run (n + 1) s = .next t) :
    ∃ u : State, step s = .next u ∧ Sys2Proof.core.run n u = .next t :=
  run_succ_next Sys2Proof.core n s t h

end Sys2Proof.Machine
end

