-- ==== Sys2Proof/Laws/Script.lean ====
section
/-!
SUPPORT. Everything one transaction of the sequential host can do.
-/

namespace Sys2Proof.Machine

/-- A transaction on an idle unit is answered, with a response that depends on the request alone, and leaves the unit idle
with one request and one response more in the record. -/
theorem transact_eq (w : ReqWord) :
    ∃ r, ∀ s : State, s.inflight = [] → s.edges = [] →
      transact w s = some (r, { s with accepted := s.accepted ++ [w], delivered := s.delivered ++ [r] }) := by
  obtain ⟨r, hr⟩ := serve_responds w
  refine ⟨r, fun s hi he => ?_⟩
  have h : step (issue w s) = .next (respond r (issue w s)) := by
    unfold step advance
    simp only [issue_edges, he]
    exact hr (issue w s) (by simp [hi, oldestPending])
  cases s
  simp_all [transact, issue, respond, answerOldest, headResponse, deliver]

end Sys2Proof.Machine
end

