-- ==== Sys2Proof/Tests/Slice0.lean ====
section
/-!
SUPPORT. Tests and witnesses. Every expected value is copied from spec/95_test_vectors.md (the section stands in the
comment) or worked out by hand from the rule named. A `witness_…` theorem shows a state and operands that meet all the
hypotheses of the obligation it names, or a clause of it.
-/

namespace Sys2Proof.Tests

open Sys2Proof.Machine

/-! ## Decoding: words written out from R37 to R40 (the words of 95_test_vectors.md sections 2.1 to 2.7) -/

theorem test_decode_raw : decode 0x0DEADBEEFCAFEF00D0000000000000000 = .ok (.raw 0xDEADBEEFCAFEF00D) := by decide
theorem test_decode_raw_ignores_b : decode 0x00000000000000005FFFFFFFFFFFFFFFF = .ok (.raw 5) := by decide
theorem test_decode_constOne : decode 0x1FFFFFFFFFFFFFFF80000000000000000 = .ok .constOne := by decide
theorem test_decode_constZero : decode 0x100000000000000010000000000000000 = .ok .constZero := by decide
theorem test_decode_constEpsilon : decode 0x100000000000000020000000000000000 = .ok .constEpsilon := by decide
theorem test_decode_constMaximum : decode 0x100000000000000030000000000000000 = .ok .constMaximum := by decide
theorem test_decode_constMinimum : decode 0x1000000000000000C0000000000000001 = .ok .constMinimum := by decide
theorem test_decode_fromint : decode 0x2DEADBEEF000000020000000000000000 = .ok (.fromint 2) := by decide
theorem test_decode_toint : decode 0x3FFFFFFFE800000000000000000000000 = .ok (.toint 0xFFFFFFFE80000000) := by decide
theorem test_decode_todbl : decode 0x400000003243F6A880000000000000000 = .ok (.todbl 0x3243F6A88) := by decide
theorem test_decode_add :
    decode 0x500000001800000000000000240000000 = .ok (.add 0x180000000 0x240000000) := by decide
theorem test_decode_sub :
    decode 0x600000001000000000000000180000000 = .ok (.sub 0x100000000 0x180000000) := by decide
theorem test_decode_mul :
    decode 0x7FFFFFFFC000000000000000500000000 = .ok (.mul 0xFFFFFFFC00000000 0x500000000) := by decide
theorem test_decode_reserved_op :
    decode 0x800000000000000000000000000000000 = .error (.illegalOp 8) ∧
    decode 0xF00000000000000050000000000000000 = .error (.illegalOp 15) := by decide
theorem test_decode_reserved_selector :
    decode 0x100000000000000050000000000000000 = .error (.illegalConst 5) ∧
    decode 0x100000000000000070000000000000000 = .error (.illegalConst 7) := by decide
theorem test_table_word_drops_padding :
    decodeTableWord 136 (0x200000000000000030000000000000000 + 2 ^ 135) = some (.fromint 3) := by decide
theorem test_encode_sub : encode (.sub 0x100000000 0x180000000) = 0x600000001000000000000000180000000 := by decide
theorem test_encode_fromint : encode (.fromint 0xFFFFFFFF) = 0x200000000FFFFFFFF0000000000000000 := by decide

/-! ## Well-formed script lines: one ill-formed line for each check of R45 -/

theorem test_refuses_name_assigned_twice :
    scriptWellFormed [] [.op (some 1) .const (.cname .one) none, .op (some 1) .raw (.hex 0) none] = false := by decide
theorem test_refuses_word_line_assigning_twice : (Line.bits (some 1) 0).wellFormed [1] = false := by decide
theorem test_refuses_unassigned_name : (Line.op none .raw (.temp 1) none).wellFormed [] = false := by decide
theorem test_refuses_decimal_outside_fromint : (Line.op none .add (.hex 0) (some (.decimal 1))).wellFormed [] = false := by
  decide
theorem test_refuses_decimal_out_of_range :
    (Line.op none .fromint (.decimal 2147483648) none).wellFormed [] = false ∧
    (Line.op none .fromint (.decimal (-2147483649)) none).wellFormed [] = false := by decide
theorem test_refuses_const_of_word : (Line.op none .const (.hex 0) none).wellFormed [] = false := by decide
theorem test_refuses_extra_operand : (Line.op none .toint (.hex 0) (some (.hex 0))).wellFormed [] = false := by decide
theorem test_refuses_missing_operand : (Line.op none .mul (.hex 0) none).wellFormed [] = false := by decide
theorem test_accepts_boundary_decimals :
    (Line.op none .fromint (.decimal 2147483647) none).wellFormed [] = true ∧
    (Line.op none .fromint (.decimal (-2147483648)) none).wellFormed [] = true := by decide

/-! ## One step of each operation, from 95_test_vectors.md -/

/-- The response of the unit to one request after reset. -/
def responseTo (w : ReqWord) : Option Response :=
  (transact w State.reset).map Prod.fst

-- Section 2.1.
theorem test_raw : responseTo 0x080000000000000000000000000000000 = some (.ok 0x8000000000000000) := by decide
theorem test_const_one : responseTo 0x1FFFFFFFFFFFFFFF80000000000000000 = some (.ok 0x100000000) := by decide
theorem test_const_zero : responseTo 0x100000000000000010000000000000000 = some (.ok 0) := by decide
theorem test_const_epsilon : responseTo 0x100000000000000020000000000000000 = some (.ok 1) := by decide
theorem test_const_maximum : responseTo 0x100000000000000030000000000000000 = some (.ok 0x7FFFFFFFFFFFFFFF) := by decide
theorem test_const_minimum : responseTo 0x1000000000000000C0000000000000001 = some (.ok 0x8000000000000000) := by decide
-- Section 2.2.
theorem test_fromint_is_signed : responseTo 0x200000000FFFFFFFF0000000000000000 = some (.ok 0xFFFFFFFF00000000) := by
  decide
theorem test_fromint_ignores_high : responseTo 0x2DEADBEEF000000020000000000000000 = some (.ok 0x200000000) := by decide
theorem test_toint_floors : responseTo 0x3FFFFFFFE800000000000000000000000 = some (.ok 0xFFFFFFFFFFFFFFFE) := by decide
theorem test_toint_minimum : responseTo 0x380000000000000000000000000000000 = some (.ok 0xFFFFFFFF80000000) := by decide
-- Section 2.3: a tie that goes up and renormalises, a tie that goes down on a negative value.
theorem test_todbl_renormalises : responseTo 0x4003FFFFFFFFFFFFF0000000000000000 = some (.ok 0x4150000000000000) := by
  decide
theorem test_todbl_tie_to_even : responseTo 0x4FFDFFFFFFFFFFFFF0000000000000000 = some (.ok 0xC140000000000000) := by
  decide
-- Section 2.4, and section 1.2's second row.
theorem test_add_wraps : responseTo 0x57FFFFFFFFFFFFFFF0000000000000001 = some (.ok 0x8000000000000000) := by decide
theorem test_sub_operand_order : responseTo 0x600000001000000000000000180000000 = some (.ok 0xFFFFFFFF80000000) := by
  decide
theorem test_sub_negates_minimum : responseTo 0x600000000000000008000000000000000 = some (.ok 0x8000000000000000) := by
  decide
-- Section 1.5 (S2) and section 1.9 (a negative tie goes away from zero).
theorem test_mul_reattaches_sign : responseTo 0x7FFFFFFFC000000000000000500000000 = some (.ok 0xFFFFFFEC00000000) := by
  decide
theorem test_mul_rounds_half_away : responseTo 0x7FFFFFFFFFFFFFFFD0000000080000000 = some (.ok 0xFFFFFFFFFFFFFFFE) := by
  decide
-- R80: the error responses.
theorem test_illegal_op : responseTo 0x900000002000000000000000300000000 = some .illegalOp := by decide
theorem test_illegal_const : responseTo 0x100000000000000050000000000000000 = some .illegalConst := by decide
-- Section 1.7 and R75: the reference path does not reattach the sign.
theorem test_reference_path : mulResultWith false 0xFFFFFFFC00000000 0x500000000 = 0x1400000000 := by decide

/-! ## Scripts, from 95_test_vectors.md section 1.5 (the case (-4, 5)) and R97 -/

theorem test_script_text :
    (["t0 = FROMINT -4".toList, "t1=FROMINT 5 -- five".toList, "t2 = MUL t0, t1".toList, "NEG 0x1".toList].map
      parseLine) =
    [some (.op (some 0) .fromint (.decimal (-4)) none), some (.op (some 1) .fromint (.decimal 5) none),
      some (.op (some 2) .mul (.temp 0) (some (.temp 1))), some (.op none .neg (.hex 1) none)] := by decide

/-- R45's example word, with its prefix and without. -/
theorem test_request_spelling :
    readRequest "0x700000002000000000000000300000000".toList = some (encode (.mul 0x200000000 0x300000000)) ∧
    spellRequest (encode (.mul 0x200000000 0x300000000)) = "700000002000000000000000300000000".toList ∧
    readRequest "0x70000000200000000000000030000000".toList = none := by decide

/-- The model's choice of log 15: an empty line and a line that is only a comment are no lines of a script. -/
theorem test_empty_line_is_no_line :
    parseLine "".toList = none ∧ parseLine "  -- only a comment".toList = none := by decide

/-- `(-4) * 5`, converted back. -/
def minusFourTimesFive : List Line :=
  [.op (some 0) .fromint (.decimal (-4)) none, .op (some 1) .fromint (.decimal 5) none,
    .op (some 2) .mul (.temp 0) (some (.temp 1)), .op none .toint (.temp 2) none]

theorem test_script_run :
    runScript minusFourTimesFive =
      .over [(2, 0xFFFFFFEC00000000), (1, 0x500000000), (0, 0xFFFFFFFC00000000)]
        [.ok 0xFFFFFFFC00000000, .ok 0x500000000, .ok 0xFFFFFFEC00000000, .ok 0xFFFFFFFFFFFFFFEC] := by decide
theorem test_script_fault : runScript [.op none .const (.cname .one) none, .bits none (packRequest 8 0 0)] = .faulted 2 1 := by
  decide
/-- The model's choice of log 15: the line that would fault is not issued. -/
theorem test_script_ill_formed :
    runScript [.bits none (packRequest 8 0 0), .op none .raw (.temp 1) none] = .illFormed := by decide
/-- The machine after the requests of a script of two lines, with one response delivered and the other in flight. -/
theorem test_run_not_over_until_delivered :
    let ls : List Line := [.op none .const (.cname .one) none, .op none .const (.cname .zero) none]
    let s : State :=
      { State.reset with
        inflight := [⟨encode .constZero, some (.ok 0)⟩], accepted := [encode .constOne, encode .constZero],
        delivered := [.ok 0x100000000] }
    runIsOver ls s = false ∧ runIsOver ls (deliver s) = true ∧
      runIsOver ls { State.reset with held := some (encode .constOne) } = false := by decide

/-! ## Clock edges, by R23, R91 and R92 -/

/-- A request, a queue with an answered request before it and another request behind it, and the edges to come. -/
def busy (w : ReqWord) (es : List Edge) : State :=
  { inflight := [⟨encode .constOne, some (.ok 0x100000000)⟩, ⟨w, none⟩, ⟨encode .constZero, none⟩],
    held := none, edges := es, accepted := [encode .constOne, w, encode .constZero], delivered := [] }

/-- An edge at which the host presents `MUL 0x3, 0x80000000`, and everything is ready. -/
def mulEdge : Edge :=
  { rst := false, reqValid := true, reqOp := 7, reqA := 3, reqB := 0x80000000, rspReady := true, unitReady := true,
    unitAnswers := true }

theorem test_edge_accepts_answers_delivers :
    step { State.reset with edges := [mulEdge] } =
      .next { State.reset with accepted := [encode (.mul 3 0x80000000)], delivered := [.ok 2] } := rfl
theorem test_edge_reset_empties :
    step (busy 0 [{ mulEdge with rst := true }, quietEdge]) = .next { State.reset with edges := [quietEdge] } := rfl
theorem test_edge_not_ready_holds :
    step { State.reset with edges := [{ mulEdge with unitReady := false }] } =
      .next { State.reset with held := some (encode (.mul 3 0x80000000)) } := rfl
theorem test_edge_withdrawn_is_refused :
    step { State.reset with held := some (encode (.mul 3 0x80000000)), edges := [quietEdge] } =
      .refused .requestNotHeld := rfl
theorem test_ports_before_answer :
    portsAt { mulEdge with unitAnswers := false } State.reset = { reqReady := true, rsp := none } := by decide

/-! ## Witnesses: encoding and the step -/

theorem witness_DecodeInvertsEncode : (Instr.mul 0xFFFFFFFC00000000 0x500000000).wellFormed = true := by decide

theorem witness_DecodeIsTotal :
    8 ≤ (opField 0x800000000000000000000000000000000).toNat ∧
    ((opField 0x100000000000000050000000000000000).toNat = 1 ∧
      5 ≤ (selOperand (aField 0x100000000000000050000000000000000)).toNat) ∧
    ((opField 0x100000000000000040000000000000000).toNat < 8 ∧
      (selOperand (aField 0x100000000000000040000000000000000)).toNat < 5) ∧
    (opField 0x7FFFFFFFC000000000000000500000000).toNat < 8 := by decide

theorem witness_StepRunsDecodedInstruction_clock_free :
    let s := busy (encode (.add 1 2)) []
    s.edges = [] ∧ oldestPending s.inflight = some (encode (.add 1 2)) ∧
      decode (encode (.add 1 2)) = .ok (.add 1 2) := by decide

theorem witness_StepRunsDecodedInstruction_at_edge :
    let s : State := { State.reset with edges := [mulEdge] }
    let t := respond (.ok 2) (acceptAtEdge mulEdge { s with edges := [] })
    s.edges = [mulEdge] ∧ mulEdge.rst = false ∧ mulEdge.unitAnswers = true ∧ requestHeld mulEdge s = true ∧
      oldestPending (acceptAtEdge mulEdge { s with edges := [] }).inflight = some (encode (.mul 3 0x80000000)) ∧
      decode (encode (.mul 3 0x80000000)) = .ok (.mul 3 0x80000000) ∧
      exec (.mul 3 0x80000000) (acceptAtEdge mulEdge { s with edges := [] }) = .next t :=
  ⟨rfl, rfl, rfl, rfl, rfl, rfl, rfl⟩

theorem witness_PlacedRequestRunsNext : decodeTableWord 132 0x400000003243F6A880000000000000000 =
    some (.todbl 0x3243F6A88) := by decide

/-- A request waits behind an answered one and before another, whatever the request. -/
theorem busy_waits (w : ReqWord) :
    Waits (busy w []) [⟨encode .constOne, some (.ok 0x100000000)⟩] w [⟨encode .constZero, none⟩] :=
  ⟨rfl, rfl, by decide⟩

theorem witness_StepAnswersAsTheRulesSay :
    Waits (busy (encode (.mul 3 5)) []) [⟨encode .constOne, some (.ok 0x100000000)⟩] (encode (.mul 3 5))
      [⟨encode .constZero, none⟩] := busy_waits _

/-- A state whose only request is answered. -/
def allAnswered : State :=
  { State.reset with inflight := [⟨encode .constOne, some (.ok 0x100000000)⟩], accepted := [encode .constOne] }

theorem witness_UnitIdlesWithoutRequest :
    allAnswered.edges = [] ∧ ∀ e ∈ allAnswered.inflight, e.rsp.isSome := by decide
theorem witness_ExecWithoutRequestChangesNothing : ∀ e ∈ allAnswered.inflight, e.rsp.isSome := by decide

theorem witness_StepStopsOnlyOnWithdrawnRequest :
    let s : State := { State.reset with held := some (encode (.raw 1)), edges := [quietEdge] }
    s.edges = quietEdge :: [] ∧ quietEdge.rst = false ∧ s.held = some (encode (.raw 1)) ∧
      ¬(quietEdge.reqValid = true ∧
        packRequest quietEdge.reqOp quietEdge.reqA quietEdge.reqB = encode (.raw 1)) := by decide

/-! ## Witnesses: exceptions -/

theorem witness_ReservedOpIsAnsweredIllegalOp_first :
    Waits (busy (packRequest 8 0 0) []) [⟨encode .constOne, some (.ok 0x100000000)⟩] (packRequest 8 0 0)
      [⟨encode .constZero, none⟩] ∧ 8 ≤ (opField (packRequest 8 0 0)).toNat := ⟨busy_waits _, by decide⟩
theorem witness_ReservedOpIsAnsweredIllegalOp_last :
    Waits (busy (packRequest 15 5 0) []) [⟨encode .constOne, some (.ok 0x100000000)⟩] (packRequest 15 5 0)
      [⟨encode .constZero, none⟩] ∧ 8 ≤ (opField (packRequest 15 5 0)).toNat := ⟨busy_waits _, by decide⟩
theorem witness_ReservedSelectorIsAnsweredIllegalConst_first :
    Waits (busy (packRequest 1 5 0) []) [⟨encode .constOne, some (.ok 0x100000000)⟩] (packRequest 1 5 0)
      [⟨encode .constZero, none⟩] ∧ (opField (packRequest 1 5 0)).toNat = 1 ∧
      5 ≤ ((aField (packRequest 1 5 0)).extractLsb' 0 3).toNat := ⟨busy_waits _, by decide⟩
theorem witness_ReservedSelectorIsAnsweredIllegalConst_last :
    Waits (busy (packRequest 1 7 0) []) [⟨encode .constOne, some (.ok 0x100000000)⟩] (packRequest 1 7 0)
      [⟨encode .constZero, none⟩] ∧ (opField (packRequest 1 7 0)).toNat = 1 ∧
      5 ≤ ((aField (packRequest 1 7 0)).extractLsb' 0 3).toNat := ⟨busy_waits _, by decide⟩
theorem witness_DefinedOperationsRaiseNothing_const :
    Waits (busy (packRequest 1 4 0) []) [⟨encode .constOne, some (.ok 0x100000000)⟩] (packRequest 1 4 0)
      [⟨encode .constZero, none⟩] ∧ (opField (packRequest 1 4 0)).toNat < 8 ∧
      ((opField (packRequest 1 4 0)).toNat = 1 → (selOperand (aField (packRequest 1 4 0))).toNat < 5) :=
  ⟨busy_waits _, by decide⟩
theorem witness_DefinedOperationsRaiseNothing_mul :
    Waits (busy (packRequest 7 5 5) []) [⟨encode .constOne, some (.ok 0x100000000)⟩] (packRequest 7 5 5)
      [⟨encode .constZero, none⟩] ∧ (opField (packRequest 7 5 5)).toNat < 8 ∧
      ((opField (packRequest 7 5 5)).toNat = 1 → (selOperand (aField (packRequest 7 5 5))).toNat < 5) :=
  ⟨busy_waits _, by decide⟩
theorem witness_ExceptionLeavesLaterRequests :
    Waits (busy (packRequest 9 0 0) []) [⟨encode .constOne, some (.ok 0x100000000)⟩] (packRequest 9 0 0)
      ({ req := encode .constZero, rsp := none } :: []) ∧ decode (packRequest 9 0 0) = .error (.illegalOp 9) :=
  ⟨busy_waits _, by decide⟩

/-! ## Witnesses: operations -/

/-- What `AnswersWith` assumes of a state. -/
theorem witness_AnswersWith :
    let s := busy (encode (.sub 0x100000000 0x180000000)) []
    s.inflight = [⟨encode .constOne, some (.ok 0x100000000)⟩] ++
      { req := encode (.sub 0x100000000 0x180000000), rsp := none } :: [⟨encode .constZero, none⟩] ∧
    ∀ e ∈ [(⟨encode .constOne, some (.ok 0x100000000)⟩ : Entry)], e.rsp.isSome := by decide

theorem witness_RawReturnsItsOperand : opField 0x0DEADBEEFCAFEF00D0000000000000000 = 0 := by decide
theorem witness_ConstReturnsNamedConstants :
    (opField 0x1FFFFFFFFFFFFFFF80000000000000000 = 1 ∧
      (aField 0x1FFFFFFFFFFFFFFF80000000000000000).extractLsb' 0 3 = 0) ∧
    (opField 0x100000000000000010000000000000000 = 1 ∧
      (aField 0x100000000000000010000000000000000).extractLsb' 0 3 = 1) ∧
    (opField 0x100000000000000020000000000000000 = 1 ∧
      (aField 0x100000000000000020000000000000000).extractLsb' 0 3 = 2) ∧
    (opField 0x100000000000000030000000000000000 = 1 ∧
      (aField 0x100000000000000030000000000000000).extractLsb' 0 3 = 3) ∧
    (opField 0x1000000000000000C0000000000000001 = 1 ∧
      (aField 0x1000000000000000C0000000000000001).extractLsb' 0 3 = 4) := by decide
theorem witness_ConstReturnsNamedConstants_reserved :
    Waits (busy (packRequest 1 5 0) []) [⟨encode .constOne, some (.ok 0x100000000)⟩] (packRequest 1 5 0)
      [⟨encode .constZero, none⟩] ∧ opField (packRequest 1 5 0) = 1 ∧
      5 ≤ ((aField (packRequest 1 5 0)).extractLsb' 0 3).toNat := ⟨busy_waits _, by decide⟩
theorem witness_FromIntIsExact : opField 0x2DEADBEEF000000020000000000000000 = 2 := by decide
theorem witness_ToIntIsFloor : opField 0x3FFFFFFFE800000000000000000000000 = 3 := by decide

theorem witness_ToDblIsNearestTiesToEven :
    (0x0020000000000001 : Word) ≠ 0 ∧ isNormalDouble 0x4140000000000001 ∧
      (0x4140000000000001 : Word) ≠ toDoubleResult 0x0020000000000001 := by
  unfold isNormalDouble
  decide
theorem witness_ToDblExponentRange : (0x8000000000000000 : Word) ≠ 0 := by decide
theorem witness_ToDblIsExactWhenItFits :
    ((0x0020000000000000 : Word) ≠ 0 ∧ (0x0020000000000000 : Word).toInt.natAbs ≤ 2 ^ 53) ∧
    ((0xFFE0000000000000 : Word) ≠ 0 ∧ (0xFFE0000000000000 : Word).toInt.natAbs ≤ 2 ^ 53) ∧
    (0x80000000 : HalfLimb) ≠ 0 := by decide

theorem witness_AddWraps :
    opField 0x500000001800000000000000240000000 = 5 ∧
    (-2 ^ 63 ≤ (0x7FFFFFFFFFFFFFFF : Word).toInt + (0 : Word).toInt ∧
      (0x7FFFFFFFFFFFFFFF : Word).toInt + (0 : Word).toInt ≤ 2 ^ 63 - 1) ∧
    2 ^ 63 - 1 < (0x7FFFFFFFFFFFFFFF : Word).toInt + (1 : Word).toInt ∧
    (0x8000000000000000 : Word).toInt + (0xFFFFFFFFFFFFFFFF : Word).toInt < -2 ^ 63 := by decide
theorem witness_SubWraps :
    opField 0x600000001000000000000000180000000 = 6 ∧
    (-2 ^ 63 ≤ (0x8000000000000000 : Word).toInt - (0 : Word).toInt ∧
      (0x8000000000000000 : Word).toInt - (0 : Word).toInt ≤ 2 ^ 63 - 1) ∧
    2 ^ 63 - 1 < (0x7FFFFFFFFFFFFFFF : Word).toInt - (0xFFFFFFFFFFFFFFFF : Word).toInt ∧
    (0x8000000000000000 : Word).toInt - (1 : Word).toInt < -2 ^ 63 := by decide
theorem witness_AddSubLaws :
    (-2 ^ 31 ≤ (0x7FFFFFFF : HalfLimb).toInt + (0 : HalfLimb).toInt ∧
      (0x7FFFFFFF : HalfLimb).toInt + (0 : HalfLimb).toInt ≤ 2 ^ 31 - 1) ∧
    (-2 ^ 31 ≤ (0x80000000 : HalfLimb).toInt - (0 : HalfLimb).toInt ∧
      (0x80000000 : HalfLimb).toInt - (0 : HalfLimb).toInt ≤ 2 ^ 31 - 1) := by decide
theorem witness_NegIsSubtractionFromZero : operandWord [(3, 0x8000000000000000)] (.temp 3) = some 0x8000000000000000 := by
  decide

theorem witness_HalfLimbsOfMagnitude : (highHalf (magnitude 0x8000000000000000)).toNat = 2 ^ 31 := by decide
theorem witness_WideProductIsExact :
    (wideMultiply 0x8000000000000000 0x8000000000000000).high.toNat = 2 ^ 62 := by decide
theorem witness_RoundingIsHalfUp :
    (0x80000000 : Word).getLsbD 31 = true ∧ (0x7FFFFFFF : Word).getLsbD 31 = false := by decide
theorem witness_SignIsReattached :
    (wideMultiply 0xFFFFFFFC00000000 0x500000000).isNegative = true ∧ (wideMultiply 3 5).isNegative = false ∧
    roundMagnitude (rescale (wideMultiply 0xFFFFFFFFFFFFFFFF 1)) (wideMultiply 0xFFFFFFFFFFFFFFFF 1).low = 0 := by
  decide
theorem witness_MulIsRoundedProduct :
    opField 0x7FFFFFFFC000000000000000500000000 = 7 ∧
    (0xFFFFFFFC00000000 : Word).getLsbD 63 ≠ (0x500000000 : Word).getLsbD 63 ∧
    (3 : Word).getLsbD 63 = (5 : Word).getLsbD 63 := by decide
/-- `-EPSILON * EPSILON`: the signs differ and the rounded product is 0, where both clauses on the sign apply. -/
theorem witness_MulIsRoundedProduct_zero :
    ((0xFFFFFFFFFFFFFFFF : Word).toInt.natAbs * (1 : Word).toInt.natAbs + 2 ^ 31) / 2 ^ 32 = 0 ∧
    (0xFFFFFFFFFFFFFFFF : Word).getLsbD 63 ≠ (1 : Word).getLsbD 63 := by decide
/-- `-3 EPSILON * 0.5`, a negative tie (95_test_vectors.md section 1.9): it meets the premises, and the result is `-2
EPSILON`, half an `EPSILON` from the product. -/
theorem witness_MulIsCorrectlyRounded_tie :
    let x : Word := 0xFFFFFFFFFFFFFFFD
    let y : Word := 0x80000000
    let mag := (x.toInt.natAbs * y.toInt.natAbs + 2 ^ 31) / 2 ^ 32
    (x.msb = y.msb → mag ≤ 2 ^ 63 - 1) ∧ (x.msb ≠ y.msb → mag ≤ 2 ^ 63) ∧
    mulResult x y = 0xFFFFFFFFFFFFFFFE ∧
    |fixedValue 0xFFFFFFFFFFFFFFFE - fixedValue x * fixedValue y| = 1 / 2 ^ 33 := by
  refine ⟨by decide, by decide, by decide, ?_⟩
  have hx : (0xFFFFFFFFFFFFFFFD : Word).toInt = -3 := by decide
  have hy : (0x80000000 : Word).toInt = 2 ^ 31 := by decide
  have hr : (0xFFFFFFFFFFFFFFFE : Word).toInt = -2 := by decide
  simp only [fixedValue, hx, hy, hr]
  norm_num
/-- `MINIMUM * ONE`: signs differ, and the rounded product is `2^63`, the most that fits. -/
theorem witness_MulIsCorrectlyRounded :
    let mag := ((0x8000000000000000 : Word).toInt.natAbs * (0x100000000 : Word).toInt.natAbs + 2 ^ 31) / 2 ^ 32
    ((0x8000000000000000 : Word).msb = (0x100000000 : Word).msb → mag ≤ 2 ^ 63 - 1) ∧
    ((0x8000000000000000 : Word).msb ≠ (0x100000000 : Word).msb → mag ≤ 2 ^ 63) := by decide
/-- `MAXIMUM * ONE`: signs agree, and the rounded product is `2^63 - 1`, the most that fits. -/
theorem witness_MulIsCorrectlyRounded_same_sign :
    let mag := ((0x7FFFFFFFFFFFFFFF : Word).toInt.natAbs * (0x100000000 : Word).toInt.natAbs + 2 ^ 31) / 2 ^ 32
    ((0x7FFFFFFFFFFFFFFF : Word).msb = (0x100000000 : Word).msb → mag ≤ 2 ^ 63 - 1) ∧
    ((0x7FFFFFFFFFFFFFFF : Word).msb ≠ (0x100000000 : Word).msb → mag ≤ 2 ^ 63) := by decide
theorem witness_MulSignConsistency :
    (0x180000000 : Word) ≠ 0x8000000000000000 ∧
    ((0x180000000 : Word) = 0x8000000000000000 ↔ (0x240000000 : Word) = 0x8000000000000000) ∧
    ¬((0x180000000 : Word) = 0x8000000000000000 ↔ (0x8000000000000000 : Word) = 0x8000000000000000) := by decide
theorem witness_MulAgreesOnIntegers :
    -2 ^ 31 ≤ (0x80000000 : HalfLimb).toInt * (1 : HalfLimb).toInt ∧
    (0x80000000 : HalfLimb).toInt * (1 : HalfLimb).toInt ≤ 2 ^ 31 - 1 := by decide
theorem witness_MulAgreesOnIntegers_top :
    -2 ^ 31 ≤ (0x7FFFFFFF : HalfLimb).toInt * (1 : HalfLimb).toInt ∧
    (0x7FFFFFFF : HalfLimb).toInt * (1 : HalfLimb).toInt ≤ 2 ^ 31 - 1 := by decide

/-! ## Witnesses: ports, reset, runs -/

/-- The bounds at the largest magnitudes, by evaluation. -/
theorem test_bounds_at_minimum : withinBounds 0x8000000000000000 0x8000000000000000 := by
  unfold withinBounds
  decide

theorem witness_ResetEdgeEmptiesTheQueue :
    (busy 0 [{ mulEdge with rst := true }]).edges = { mulEdge with rst := true } :: [] ∧
      ({ mulEdge with rst := true } : Edge).rst = true := by decide

theorem witness_EdgeFollowsTheHandshake :
    let s : State := { State.reset with edges := [mulEdge] }
    s.edges = mulEdge :: [] ∧ mulEdge.rst = false ∧
      step s = .next { State.reset with accepted := [encode (.mul 3 0x80000000)], delivered := [.ok 2] } :=
  ⟨rfl, rfl, rfl⟩

/-- An edge at which the request of `mulEdge` is presented and nothing else happens. -/
def presentEdge : Edge :=
  { mulEdge with rspReady := false, unitAnswers := false }

theorem witness_PresentedRequestJoinsOrIsHeld_joins :
    let s : State := { State.reset with held := some (encode (.mul 3 0x80000000)), edges := [presentEdge] }
    s.edges = presentEdge :: [] ∧ presentEdge.rst = false ∧ presentEdge.reqValid = true ∧
      presentEdge.rspReady = false ∧ presentEdge.unitAnswers = false ∧
      (∀ w, s.held = some w → packRequest presentEdge.reqOp presentEdge.reqA presentEdge.reqB = w) ∧
      presentEdge.unitReady = true ∧ s.inflight.length < Config.maxInflight :=
  ⟨rfl, rfl, rfl, rfl, rfl, fun w h => Option.some.inj h, rfl, by decide⟩

theorem witness_PresentedRequestJoinsOrIsHeld_held :
    let e : Edge := { presentEdge with unitReady := false }
    let s : State := { State.reset with edges := [e] }
    s.edges = e :: [] ∧ e.rst = false ∧ e.reqValid = true ∧ e.rspReady = false ∧ e.unitAnswers = false ∧
      (∀ w, s.held = some w → packRequest e.reqOp e.reqA e.reqB = w) ∧
      ¬(e.unitReady = true ∧ s.inflight.length < Config.maxInflight) :=
  ⟨rfl, rfl, rfl, rfl, rfl, fun w h => (by simp at h), by decide⟩

/-- A queue that is exactly full: the unit has no room, whatever `MAX_INFLIGHT` is. -/
theorem witness_PresentedRequestJoinsOrIsHeld_full :
    let s : State :=
      { State.reset with
        inflight := List.replicate Config.maxInflight ⟨encode .constOne, none⟩, edges := [presentEdge] }
    s.edges = presentEdge :: [] ∧ presentEdge.rst = false ∧ presentEdge.reqValid = true ∧
      presentEdge.rspReady = false ∧ presentEdge.unitAnswers = false ∧
      (∀ w, s.held = some w → packRequest presentEdge.reqOp presentEdge.reqA presentEdge.reqB = w) ∧
      ¬(presentEdge.unitReady = true ∧ s.inflight.length < Config.maxInflight) :=
  ⟨rfl, rfl, rfl, rfl, rfl, fun w h => (by simp at h), by simp⟩

theorem witness_ReadyOnlyWithRoom : (portsAt mulEdge State.reset).reqReady = true := by decide

theorem witness_ResponseIsHeldUntilDelivered :
    let e : Edge := { quietEdge with rspReady := false }
    let s : State := { allAnswered with edges := [e] }
    s.edges = e :: [] ∧ e.rst = false ∧ e.rspReady = false ∧ (portsAt e s).rsp = some (.ok 0x100000000) ∧
      step s = .next allAnswered ∧ quietEdge.rst = false :=
  ⟨rfl, rfl, rfl, rfl, rfl, rfl⟩

/-- One request delivered, the next one waiting. -/
def midway : State :=
  { State.reset with
    inflight := [⟨encode (.mul 3 0x80000000), none⟩], accepted := [encode .constOne, encode (.mul 3 0x80000000)],
    delivered := [.ok 0x100000000] }

theorem witness_StepKeepsTheInvariant :
    UnitInv midway ∧
      step midway = .next { midway with inflight := [⟨encode (.mul 3 0x80000000), some (.ok 2)⟩] } :=
  ⟨⟨by decide, by unfold answeredInOrder; decide, by simp [midway], by decide, by decide⟩, rfl⟩

/-- A schedule that accepts a request, answers it and delivers the response, whatever `MAX_INFLIGHT` is. -/
theorem witness_EveryScheduleReturnsInOrder :
    Sys2Proof.core.run 1 { State.reset with edges := [mulEdge] } =
        .next { State.reset with accepted := [encode (.mul 3 0x80000000)], delivered := [.ok 2] } :=
  rfl

/-- The same request answered an edge later. -/
theorem witness_TimingDoesNotChangeResponses :
    Sys2Proof.core.run 1 { State.reset with edges := [mulEdge] } =
        .next { State.reset with accepted := [encode (.mul 3 0x80000000)], delivered := [.ok 2] } ∧
      Sys2Proof.core.run 2 { State.reset with edges := [presentEdge, quietEdge] } =
        .next { State.reset with accepted := [encode (.mul 3 0x80000000)], delivered := [.ok 2] } :=
  ⟨rfl, rfl⟩

theorem witness_EveryPendingRequestIsAnswered :
    (busy (encode (.mul 3 5)) []).edges = [] ∧ pendingCount (busy (encode (.mul 3 5)) []).inflight = 2 := by decide

theorem witness_QuietEdgesDrainTheQueue :
    (busy 0 (List.replicate 3 quietEdge ++ [mulEdge])).held = none ∧
    (busy 0 (List.replicate 3 quietEdge ++ [mulEdge])).edges =
      List.replicate (busy 0 (List.replicate 3 quietEdge ++ [mulEdge])).inflight.length quietEdge ++ [mulEdge] := by
  decide

/-- A held request behind a waiting one: the edge answers and delivers the waiting one, the next edge accepts the held
one, answers it and delivers its response, and nothing comes after. -/
def progressSchedule (n : Nat) : Edge :=
  match n with
  | 0 => { mulEdge with unitReady := false }
  | 1 => mulEdge
  | _ + 2 => { quietEdge with unitReady := true }

/-- The machine on `progressSchedule`. -/
def progressTrace (n : Nat) : State :=
  match n with
  | 0 =>
    { State.reset with
      inflight := [⟨encode (.raw 7), none⟩], held := some (encode (.mul 3 0x80000000)), accepted := [encode (.raw 7)] }
  | 1 =>
    { State.reset with
      held := some (encode (.mul 3 0x80000000)), accepted := [encode (.raw 7)], delivered := [.ok 7] }
  | _ + 2 =>
    { State.reset with
      accepted := [encode (.raw 7), encode (.mul 3 0x80000000)], delivered := [.ok 7, .ok 2] }

theorem witness_UnitMakesProgress :
    Executes progressSchedule progressTrace ∧ NeverReset progressSchedule ∧
      UnitIsFair progressSchedule progressTrace ∧ HostTakes progressSchedule progressTrace ∧
      (progressTrace 0).held = some (encode (.mul 3 0x80000000)) := by
  refine ⟨fun n => ?_, fun n => ?_, ⟨fun n _ => ⟨n + 2, by omega, rfl⟩, fun n _ => ⟨n + 2, by omega, rfl⟩⟩,
    fun n _ => ⟨n + 2, by omega, rfl⟩, rfl⟩
  · match n with
    | 0 => rfl
    | 1 => rfl
    | _ + 2 => rfl
  · match n with
    | 0 => rfl
    | 1 => rfl
    | _ + 2 => rfl

/-- The end of a run of one line, and of a faulted run behind which a further request was accepted. -/
theorem witness_EveryRunEndsAsTheSequentialRun :
    UnitInv { State.reset with accepted := [encode (.mul 3 0x80000000)], delivered := [.ok 2] } ∧
    runEnd [.op (some 0) .mul (.hex 3) (some (.hex 0x80000000))]
      { State.reset with accepted := [encode (.mul 3 0x80000000)], delivered := [.ok 2] } =
        some (.over [(0, 2)] [.ok 2]) ∧
    UnitInv
      { State.reset with
        inflight := [⟨encode (.raw 7), none⟩], accepted := [packRequest 8 0 0, encode (.raw 7)],
        delivered := [.illegalOp] } ∧
    runEnd [.bits none (packRequest 8 0 0), .op none .raw (.hex 7) none]
      { State.reset with
        inflight := [⟨encode (.raw 7), none⟩], accepted := [packRequest 8 0 0, encode (.raw 7)],
        delivered := [.illegalOp] } = some (.faulted 1 1) :=
  ⟨⟨by decide, by unfold answeredInOrder; decide, by simp, by decide, by decide⟩, by decide,
    ⟨by decide, by unfold answeredInOrder; decide, by simp, by decide, by decide⟩, by decide⟩

theorem witness_ResetLeavesNoEndState :
    (busy 0 [{ mulEdge with rst := true }]).edges = { mulEdge with rst := true } :: [] ∧
      ({ mulEdge with rst := true } : Edge).rst = true ∧
      step (busy 0 [{ mulEdge with rst := true }]) = .next State.reset ∧ minusFourTimesFive ≠ [] :=
  ⟨rfl, rfl, rfl, by decide⟩

theorem witness_WellFormedScriptNeverFaults :
    scriptWellFormed [] minusFourTimesFive = true ∧ ∀ l ∈ minusFourTimesFive, ∀ d w, l ≠ .bits d w :=
  ⟨by decide, by simp [minusFourTimesFive]⟩

end Sys2Proof.Tests
end

section
/-!
PROOF. `NEG x` as a pseudo-operation (R46): its line assembles to a `SUB` request with first operand 0, and subtraction
from 0 is negation modulo 2^64.
-/

namespace Sys2Proof.Machine

/-- An operation that responds `r` in every state answers with `r` and changes nothing else. -/
theorem answersWith_of_exec_eq_respond (i : Instr) (r : Response) (h : ∀ s, exec i s = .next (respond r s)) :
    AnswersWith i r := by
  intro s pre post w hq hpre
  rw [h s, respond_eq r s pre post w hq hpre]

theorem answersWith_sub (x y : Word) : AnswersWith (.sub x y) (.ok (subResult x y)) :=
  answersWith_of_exec_eq_respond _ _ (exec_sub x y)

/-- Decoding looks at a packed request's fields only. -/
theorem decode_packRequest (op : BitVec 4) (a b : Word) : decode (packRequest op a b) = decodeFields op a b := by
  rw [decode, opField_packRequest, aField_packRequest, bField_packRequest]

theorem decode_packRequest_sub (x y : Word) : decode (packRequest 6 x y) = .ok (.sub x y) :=
  decode_packRequest 6 x y

theorem assembleLine_neg (names : Names) (dest : Option Nat) (x : Operand) (v : Word)
    (hx : operandWord names x = some v) :
    assembleLine names (.op dest .neg x none) = some (packRequest 6 0 v) := by
  simp only [assembleLine, negRequest, hx]

theorem assembleLine_sub (names : Names) (dest : Option Nat) (x y : Operand) (v w : Word)
    (hx : operandWord names x = some v) (hy : operandWord names y = some w) :
    assembleLine names (.op dest .sub x (some y)) = some (packRequest 6 v w) := by
  simp only [assembleLine, binaryRequest, Option.bind_some, hx, hy]

@[simp] theorem subResult_zero_left (v : Word) : subResult 0 v = neg64 v :=
  BitVec.zero_sub v

theorem neg64_minimum : neg64 0x8000000000000000 = 0x8000000000000000 := by decide

theorem neg64_zero : neg64 0 = 0 := by decide

/-- `SUB 0, v` answers with the negation of `v`. -/
theorem answersWith_sub_zero_left (v : Word) : AnswersWith (.sub 0 v) (.ok (neg64 v)) := by
  simpa only [subResult_zero_left] using answersWith_sub 0 v

/-- Settles O28: the two lines assemble to one request word, which decodes to `SUB 0, v`; `MINIMUM` and `ZERO` are the
fixed points of `neg_64`. -/
theorem negIsSubtractionFromZero : Obligations.NegIsSubtractionFromZero := by
  refine ⟨fun names dest x v hx => ⟨assembleLine_neg names dest x v hx, ?_, decode_packRequest_sub 0 v⟩,
    answersWith_sub_zero_left, ?minimum, ?zero⟩
  · rw [assembleLine_neg names dest x v hx, assembleLine_sub names dest (.hex 0) x 0 v rfl hx]
  case minimum => simpa only [neg64_minimum] using answersWith_sub_zero_left 0x8000000000000000
  case zero => simpa only [neg64_zero] using answersWith_sub_zero_left 0

end Sys2Proof.Machine
end

section
/-!
PROOF. Construction and conversion without `TODBL`: `RAW` (R48), `CONST` (R49), `FROMINT` (R50) and `TOINT` (R51). The
result of `FROMINT` is the integer set before 32 zero bits; that of `TOINT` is the upper half-limb, sign-extended.
-/

namespace Sys2Proof.Machine

/-! ### Decoding from the fields of a request word -/

theorem decode_of_opField_eq (w : ReqWord) (op : BitVec 4) (h : opField w = op) :
    decode w = decodeFields op (aField w) (bField w) := by
  rw [decode, h]

theorem decodeFields_raw (a b : Word) : decodeFields 0 a b = .ok (.raw a) := rfl

theorem decodeFields_const (a b : Word) : decodeFields 1 a b = decodeConst (selOperand a) := rfl

theorem decodeFields_fromint (a b : Word) : decodeFields 2 a b = .ok (.fromint (intOperand a)) := rfl

theorem decodeFields_toint (a b : Word) : decodeFields 3 a b = .ok (.toint a) := rfl

/-- A `CONST` request decodes by its selector alone (R40, R49). -/
theorem decode_const_of_selOperand_eq (w : ReqWord) (sel : BitVec 3) (hop : opField w = 1)
    (hsel : selOperand (aField w) = sel) : decode w = decodeConst sel := by
  rw [decode_of_opField_eq w 1 hop, decodeFields_const, hsel]

/-- The reserved selectors are exactly those from 5 on (R43). -/
theorem decodeConst_of_five_le (sel : BitVec 3) (h : 5 ≤ sel.toNat) :
    decodeConst sel = .error (.illegalConst sel) := by
  unfold decodeConst
  split
  case h_6 => rfl
  all_goals omega

/-! ### An exception taken by the step -/

/-- A waiting request that does not decode gets its error response from the next step, and nothing else changes (R82). -/
theorem step_of_decode_eq_error (s : State) (pre post : List Entry) (w : ReqWord) (t : Trap) (hw : Waits s pre w post)
    (hd : decode w = .error t) : step s = .next (answered s pre w (trapResponse t) post) := by
  obtain ⟨hedges, hq, hpre⟩ := hw
  have hold : oldestPending s.inflight = some w := hq ▸ oldestPending_append pre post w hpre
  calc step s = serve s := by simp only [step, advance, hedges]
    _ = .next (raise t s) := by simp only [serve, hold, hd]
    _ = .next (answered s pre w (trapResponse t) post) := by rw [raise, respond_eq _ s pre post w hq hpre, answered]

/-! ### The result of `FROMINT` as a number -/

/-- The integer in the upper half-limb, zeros in the lower one (R50). -/
theorem fromIntResult_eq_append (n : HalfLimb) : fromIntResult n = n ++ (0 : HalfLimb) := by
  refine BitVec.eq_of_getLsbD_eq fun i hi => ?_
  rw [fromIntResult, sext64, BitVec.getLsbD_shiftLeft, BitVec.getLsbD_append]
  by_cases hlow : i < 32
  · simp [hlow]
  · have hupper : i - 32 < 32 := by omega
    have hword : i - 32 < 64 := by omega
    simp [hi, hlow, hupper, hword, BitVec.getElem_signExtend]

theorem append_zero_toNat (n : HalfLimb) : (n ++ (0 : HalfLimb)).toNat = n.toNat * 2 ^ 32 := by
  rw [BitVec.toNat_append]
  simp [Nat.shiftLeft_eq]

/-- `s(raw) = s(n) * 2^32` (R50). -/
theorem fromIntResult_toInt (n : HalfLimb) : (fromIntResult n).toInt = n.toInt * 2 ^ 32 := by
  have hn := append_zero_toNat n
  rw [fromIntResult_eq_append, BitVec.toInt_eq_toNat_cond, BitVec.toInt_eq_toNat_cond]
  omega

/-- `q(raw) = s(n)` (R50). -/
theorem fixedValue_fromIntResult (n : HalfLimb) : fixedValue (fromIntResult n) = n.toInt := by
  rw [fixedValue, fromIntResult_toInt]
  push_cast
  exact mul_div_cancel_right₀ _ (by positivity)

/-! ### The result of `TOINT` as a number -/

/-- An arithmetic shift right divides, rounding toward negative infinity (R8). -/
theorem sra64_toInt (x : Word) (n : Nat) : (sra64 x n).toInt = x.toInt / 2 ^ n := by
  rw [sra64, BitVec.toInt_sshiftRight, Int.shiftRight_eq_div_pow]
  norm_cast

/-- The low half-limb after the arithmetic shift is the upper half-limb before it. -/
theorem lowHalf_sra64 (x : Word) : lowHalf (sra64 x 32) = highHalf x := by
  apply BitVec.eq_of_toNat_eq
  have hshift := sra64_toInt x 32
  rw [BitVec.toInt_eq_toNat_cond, BitVec.toInt_eq_toNat_cond] at hshift
  rw [lowHalf_toNat, highHalf_toNat]
  omega

theorem toIntResult_eq (x : Word) : toIntResult x = sext64 (highHalf x) := by
  rw [toIntResult, lowHalf_sra64]

theorem sext64_toInt (v : HalfLimb) : (sext64 v).toInt = v.toInt :=
  BitVec.toInt_signExtend_of_le (by decide)

/-- The upper half-limb, read as signed, is the floor of the signed word over `2^32`. -/
theorem highHalf_toInt (x : Word) : (highHalf x).toInt = x.toInt / 2 ^ 32 := by
  have hx := highHalf_toNat x
  have := x.isLt
  rw [BitVec.toInt_eq_toNat_cond, BitVec.toInt_eq_toNat_cond]
  omega

theorem toIntResult_toInt (x : Word) : (toIntResult x).toInt = x.toInt / 2 ^ 32 := by
  rw [toIntResult_eq, sext64_toInt, highHalf_toInt]

/-- Nothing is lost when the shifted word is cut to 32 bits and extended again (R51). -/
theorem toIntResult_eq_sshiftRight (x : Word) : toIntResult x = x.sshiftRight 32 :=
  BitVec.eq_of_toInt_eq ((toIntResult_toInt x).trans (sra64_toInt x 32).symm)

theorem floor_fixedValue (x : Word) : ⌊fixedValue x⌋ = x.toInt / 2 ^ 32 := by
  rw [fixedValue]
  exact_mod_cast Rat.floor_intCast_div_natCast x.toInt (2 ^ 32)

/-! ### The obligations -/

theorem answersWith_raw (x : Word) : AnswersWith (.raw x) (.ok x) :=
  answersWith_of_exec_eq_respond _ _ (exec_raw x)

theorem answersWith_fromint (n : HalfLimb) : AnswersWith (.fromint n) (.ok (fromIntResult n)) :=
  answersWith_of_exec_eq_respond _ _ (exec_fromint n)

theorem answersWith_toint (x : Word) : AnswersWith (.toint x) (.ok (toIntResult x)) :=
  answersWith_of_exec_eq_respond _ _ (exec_toint x)

/-- Settles O17: the decoder hands `RAW` the first operand alone, and `exec` responds with it. -/
theorem rawReturnsItsOperand : Obligations.RawReturnsItsOperand :=
  ⟨fun w hop => by rw [decode_of_opField_eq w 0 hop, decodeFields_raw], answersWith_raw⟩

/-- Settles O18: `CONST` decodes by its selector alone, each of 0 to 4 to the operation of its constant, and from 5 on to
the exception, which the step takes. -/
theorem constReturnsNamedConstants : Obligations.ConstReturnsNamedConstants := by
  refine ⟨answersWith_of_exec_eq_respond _ _ exec_constOne, answersWith_of_exec_eq_respond _ _ exec_constZero,
    answersWith_of_exec_eq_respond _ _ exec_constEpsilon, answersWith_of_exec_eq_respond _ _ exec_constMaximum,
    answersWith_of_exec_eq_respond _ _ exec_constMinimum, fun w hop => ?selected, ?reserved⟩
  case selected =>
    have hdecode (sel : BitVec 3) := decode_const_of_selOperand_eq w sel hop
    exact ⟨hdecode 0, hdecode 1, hdecode 2, hdecode 3, hdecode 4⟩
  case reserved =>
    intro s pre post w hw hop hsel
    have hd := (decode_const_of_selOperand_eq w _ hop rfl).trans (decodeConst_of_five_le _ hsel)
    exact step_of_decode_eq_error s pre post w _ hw hd

/-- Settles O19: the result is `n` before 32 zero bits, whose signed reading is `s(n) * 2^32`. -/
theorem fromIntIsExact : Obligations.FromIntIsExact := by
  refine ⟨fun w hop => ?_, fun n => ⟨fromIntResult n, answersWith_fromint n, rfl, fromIntResult_eq_append n,
    fromIntResult_toInt n, fixedValue_fromIntResult n⟩⟩
  rw [decode_of_opField_eq w 2 hop, decodeFields_fromint, intOperand]

/-- Settles O20: the result is the sign-extended upper half-limb, whose signed reading is the floor of `s(x) / 2^32`. -/
theorem toIntIsFloor : Obligations.ToIntIsFloor := by
  refine ⟨fun w hop => ?decodes, fun x => ⟨toIntResult x, answersWith_toint x, toIntResult_eq_sshiftRight x,
    toIntResult_eq x, ?fdiv, ?floor⟩⟩
  case decodes => rw [decode_of_opField_eq w 3 hop, decodeFields_toint]
  case fdiv => rw [toIntResult_toInt, Int.fdiv_eq_ediv_of_nonneg _ (by decide)]
  case floor => rw [toIntResult_toInt, floor_fixedValue]

end Sys2Proof.Machine
end

section
/-!
PROOF. Addition (R56) and subtraction (R57). Both responses, read as signed words, are the balanced remainder modulo
`2^64` of the integer result. Two signed words have a sum and a difference less than `2^64` away from 0, so the result is
one of three cases: the integer itself, `2^64` below it, or `2^64` above it.
-/

namespace Sys2Proof.Machine

theorem decodeFields_add (a b : Word) : decodeFields 5 a b = .ok (.add a b) := rfl

theorem decodeFields_sub (a b : Word) : decodeFields 6 a b = .ok (.sub a b) := rfl

theorem answersWith_add (x y : Word) : AnswersWith (.add x y) (.ok (addResult x y)) :=
  answersWith_of_exec_eq_respond _ _ (exec_add x y)

/-! ### The balanced remainder modulo `2^64` -/

theorem bmod_of_fits (n : Int) (hlo : -2 ^ 63 ≤ n) (hhi : n ≤ 2 ^ 63 - 1) : n.bmod (2 ^ 64) = n :=
  Int.bmod_eq_of_le (by omega) (by omega)

theorem bmod_of_above (n : Int) (hlo : 2 ^ 63 - 1 < n) (hhi : n < 2 ^ 64) : n.bmod (2 ^ 64) = n - 2 ^ 64 := by
  have hshift : (n - 2 ^ 64).bmod (2 ^ 64) = n.bmod (2 ^ 64) := Int.sub_bmod_right n (2 ^ 64)
  rw [← hshift, bmod_of_fits _ (by omega) (by omega)]

theorem bmod_of_below (n : Int) (hlo : -2 ^ 64 ≤ n) (hhi : n < -2 ^ 63) : n.bmod (2 ^ 64) = n + 2 ^ 64 := by
  have hshift : (n + 2 ^ 64).bmod (2 ^ 64) = n.bmod (2 ^ 64) := Int.add_bmod_right n (2 ^ 64)
  rw [← hshift, bmod_of_fits _ (by omega) (by omega)]

/-- `s(x)` lies between `-2^63` and `2^63 - 1` (R7). -/
theorem word_toInt_bounds (x : Word) : -2 ^ 63 ≤ x.toInt ∧ x.toInt ≤ 2 ^ 63 - 1 :=
  ⟨x.le_toInt, Int.le_sub_one_of_lt x.toInt_lt⟩

theorem toInt_add_bounds (x y : Word) : -2 ^ 64 ≤ x.toInt + y.toInt ∧ x.toInt + y.toInt < 2 ^ 64 := by
  have hx := word_toInt_bounds x
  have hy := word_toInt_bounds y
  omega

theorem toInt_sub_bounds (x y : Word) : -2 ^ 64 ≤ x.toInt - y.toInt ∧ x.toInt - y.toInt < 2 ^ 64 := by
  have hx := word_toInt_bounds x
  have hy := word_toInt_bounds y
  omega

/-! ### `ADD` as a number (R56) -/

theorem addResult_comm (x y : Word) : addResult x y = addResult y x :=
  BitVec.add_comm x y

theorem addResult_zero_right (x : Word) : addResult x 0 = x :=
  BitVec.add_zero x

theorem addResult_self (x : Word) : addResult x x = x <<< 1 := by
  have htwo : BitVec.twoPow 64 1 = 2 := rfl
  rw [addResult, BitVec.shiftLeft_eq_mul_twoPow, htwo, mul_two]

theorem addResult_eq_ofNat (x y : Word) : addResult x y = BitVec.ofNat 64 (x.toNat + y.toNat) := by
  rw [BitVec.ofNat_add, BitVec.ofNat_toNat, BitVec.ofNat_toNat, BitVec.setWidth_eq, BitVec.setWidth_eq, addResult]

theorem addResult_eq_ofInt (x y : Word) : addResult x y = BitVec.ofInt 64 (x.toInt + y.toInt) := by
  rw [BitVec.ofInt_add, BitVec.ofInt_toInt, BitVec.ofInt_toInt, addResult]

theorem addResult_toInt (x y : Word) : (addResult x y).toInt = (x.toInt + y.toInt).bmod (2 ^ 64) :=
  BitVec.toInt_add x y

theorem fixedValue_eq_add (r x y : Word) (h : r.toInt = x.toInt + y.toInt) :
    fixedValue r = fixedValue x + fixedValue y := by
  rw [fixedValue, fixedValue, fixedValue, h, Int.cast_add, add_div]

/-! ### `SUB` as a number (R57) -/

theorem subResult_self (x : Word) : subResult x x = 0 :=
  BitVec.sub_self x

theorem subResult_zero_right (x : Word) : subResult x 0 = x :=
  BitVec.sub_zero x

theorem subResult_eq_add_neg (x y : Word) : subResult x y = x + -y :=
  BitVec.sub_eq_add_neg x y

theorem neg_subResult (x y : Word) : -subResult x y = subResult y x :=
  neg_sub x y

theorem ofInt_sub (m n : Int) : BitVec.ofInt 64 (m - n) = BitVec.ofInt 64 m - BitVec.ofInt 64 n := by
  rw [Int.sub_eq_add_neg, BitVec.ofInt_add, BitVec.ofInt_neg, BitVec.sub_eq_add_neg]

theorem subResult_eq_ofInt_toNat (x y : Word) : subResult x y = BitVec.ofInt 64 ((x.toNat : Int) - y.toNat) := by
  rw [ofInt_sub, BitVec.ofInt_natCast, BitVec.ofInt_natCast, BitVec.ofNat_toNat, BitVec.ofNat_toNat,
    BitVec.setWidth_eq, BitVec.setWidth_eq, subResult]

theorem subResult_eq_ofInt_toInt (x y : Word) : subResult x y = BitVec.ofInt 64 (x.toInt - y.toInt) := by
  rw [ofInt_sub, BitVec.ofInt_toInt, BitVec.ofInt_toInt, subResult]

theorem subResult_toInt (x y : Word) : (subResult x y).toInt = (x.toInt - y.toInt).bmod (2 ^ 64) :=
  BitVec.toInt_sub

theorem fixedValue_eq_sub (r x y : Word) (h : r.toInt = x.toInt - y.toInt) :
    fixedValue r = fixedValue x - fixedValue y := by
  rw [fixedValue, fixedValue, fixedValue, h, Int.cast_sub, sub_div]

/-- Swapping the operands negates the response (R57). -/
theorem answersWith_sub_swap (x y : Word) : AnswersWith (.sub y x) (.ok (-subResult x y)) := by
  rw [neg_subResult]
  exact answersWith_sub y x

/-! ### The obligations -/

/-- Settles O25: the response is the 64-bit sum, whose signed reading is the balanced remainder of `s(x) + s(y)`. -/
theorem addWraps : Obligations.AddWraps := by
  refine ⟨fun w hop => ?decodes, fun x y => ⟨addResult x y, answersWith_add x y, ?commuted, addResult_eq_ofNat x y,
    addResult_eq_ofInt x y, ?exact, ?above, ?below, ?zero, ?double⟩⟩
  case decodes => rw [decode_of_opField_eq w 5 hop, decodeFields_add]
  case commuted => exact addResult_comm x y ▸ answersWith_add y x
  case exact =>
    rintro ⟨hlo, hhi⟩
    have hexact := (addResult_toInt x y).trans (bmod_of_fits _ hlo hhi)
    exact ⟨hexact, fixedValue_eq_add _ x y hexact⟩
  case above =>
    intro habove
    exact (addResult_toInt x y).trans (bmod_of_above _ habove (toInt_add_bounds x y).2)
  case below =>
    intro hbelow
    exact (addResult_toInt x y).trans (bmod_of_below _ (toInt_add_bounds x y).1 hbelow)
  case zero => rintro rfl; exact addResult_zero_right x
  case double => rintro rfl; exact addResult_self y

/-- Settles O26: the response is the 64-bit difference, whose signed reading is the balanced remainder of
`s(x) - s(y)`. -/
theorem subWraps : Obligations.SubWraps := by
  refine ⟨fun w hop => ?decodes, fun x y => ⟨subResult x y, answersWith_sub x y, answersWith_sub_swap x y,
    subResult_eq_ofInt_toNat x y, subResult_eq_ofInt_toInt x y, subResult_eq_add_neg x y, ?exact, ?above, ?below,
    ?zero, ?self, ?fromZero⟩⟩
  case decodes => rw [decode_of_opField_eq w 6 hop, decodeFields_sub]
  case exact =>
    rintro ⟨hlo, hhi⟩
    have hexact := (subResult_toInt x y).trans (bmod_of_fits _ hlo hhi)
    exact ⟨hexact, fixedValue_eq_sub _ x y hexact⟩
  case above =>
    intro habove
    exact (subResult_toInt x y).trans (bmod_of_above _ habove (toInt_sub_bounds x y).2)
  case below =>
    intro hbelow
    exact (subResult_toInt x y).trans (bmod_of_below _ (toInt_sub_bounds x y).1 hbelow)
  case zero => rintro rfl; exact subResult_zero_right x
  case self => rintro rfl; exact subResult_self y
  case fromZero => rintro rfl; exact subResult_zero_left y

end Sys2Proof.Machine
end

section
/-!
PROOF. Multiplication, step by step (R60 to R70). A word is its two half-limbs, so the columns of the cross-products sum
to the product of the magnitudes. Each step keeps that number: the carry loop splits the middle column, the assembled
words lose nothing because the product is below `2^128`, and the rescaling and the rounding divide it.
-/

namespace Sys2Proof.Machine

theorem decodeFields_mul (a b : Word) : decodeFields 7 a b = .ok (.mul a b) := rfl

theorem answersWith_mul (x y : Word) : AnswersWith (.mul x y) (.ok (mulResult x y)) :=
  answersWith_of_exec_eq_respond _ _ (exec_mul x y)

/-! ### Step 1: magnitudes and sign (R61) -/

theorem msb_eq_bit63 (x : Word) : x.msb = x.getLsbD 63 :=
  BitVec.msb_eq_getLsbD_last x

theorem magnitude_toNat (x : Word) : (magnitude x).toNat = x.toInt.natAbs := by
  have hlt := x.isLt
  rw [magnitude, neg64]
  cases hsign : x.msb with
  | false => rw [if_neg (by decide), BitVec.toInt_eq_toNat_of_msb hsign, Int.natAbs_natCast]
  | true =>
    have hlow := BitVec.toNat_ge_of_msb_true hsign
    rw [if_pos rfl, BitVec.toNat_neg, BitVec.toInt_eq_msb_cond, if_pos hsign]
    omega

theorem magnitude_toNat_le (x : Word) : (magnitude x).toNat ≤ 2 ^ 63 := by
  have hx := word_toInt_bounds x
  rw [magnitude_toNat]
  omega

theorem magnitude_eq_ite (x : Word) : magnitude x = if x.getLsbD 63 then -x else x := by
  rw [magnitude, neg64, msb_eq_bit63]

theorem resultIsNegative_eq (x y : Word) : resultIsNegative x y = (x.msb ^^ y.msb) := by
  rw [resultIsNegative, signBit, signBit]
  cases x.msb <;> cases y.msb <;> rfl

/-! ### Step 2: half-limbs (R62) -/

/-- A word is its two half-limbs. -/
theorem halves_toNat (w : Word) : (highHalf w).toNat * 2 ^ 32 + (lowHalf w).toNat = w.toNat := by
  rw [highHalf_toNat, lowHalf_toNat]
  exact Nat.div_add_mod' w.toNat (2 ^ 32)

theorem highHalf_toNat_lt (w : Word) : (highHalf w).toNat < 2 ^ 32 := (highHalf w).isLt

theorem lowHalf_toNat_lt (w : Word) : (lowHalf w).toNat < 2 ^ 32 := (lowHalf w).isLt

/-! ### Step 3: cross-products (R63) -/

theorem limbProduct_toNat_le (p q : HalfLimb) : (limbProduct p q).toNat ≤ (2 ^ 32 - 1) ^ 2 := by
  rw [limbProduct_toNat, sq]
  exact Nat.mul_le_mul (Nat.le_sub_one_of_lt p.isLt) (Nat.le_sub_one_of_lt q.isLt)

/-- The upper half of a limb product leaves room for a carry (R63). -/
theorem highHalf_limbProduct_le (p q : HalfLimb) : (highHalf (limbProduct p q)).toNat ≤ 2 ^ 32 - 2 := by
  have hle := limbProduct_toNat_le p q
  rw [highHalf_toNat]
  omega

/-- The products of the half-limbs, in their columns, sum to the product of the words. -/
theorem crossProducts_sum (a b : Word) :
    a.toNat * b.toNat = (crossProducts a b).g.toNat * 2 ^ 64 +
      ((crossProducts a b).e.toNat + (crossProducts a b).f.toNat) * 2 ^ 32 + (crossProducts a b).d.toNat := by
  simp only [crossProducts, limbProduct_toNat]
  rw [← halves_toNat a, ← halves_toNat b]
  ring

/-- Whatever holds of every limb product holds of the four cross-products. -/
theorem forall_crossProducts {P : Word → Prop} (h : ∀ p q : HalfLimb, P (limbProduct p q)) (a b : Word) :
    ∀ v ∈ [(crossProducts a b).d, (crossProducts a b).e, (crossProducts a b).f, (crossProducts a b).g], P v := by
  simp only [crossProducts, List.forall_mem_cons, List.not_mem_nil, false_implies, implies_true, and_true]
  exact ⟨h _ _, h _ _, h _ _, h _ _⟩

/-! ### Step 4: the middle column (R64) -/

theorem middleSum_le (a b : Word) : middleSum (crossProducts a b) ≤ 3 * 2 ^ 32 - 4 := by
  have hd := highHalf_limbProduct_le (lowHalf a) (lowHalf b)
  have he := lowHalf_toNat_lt (crossProducts a b).e
  have hf := lowHalf_toNat_lt (crossProducts a b).f
  have hsum : middleSum (crossProducts a b) = (highHalf (limbProduct (lowHalf a) (lowHalf b))).toNat +
    (lowHalf (crossProducts a b).e).toNat + (lowHalf (crossProducts a b).f).toNat := rfl
  omega

/-- Two iterations drain the middle column, and no further one changes it (log 12). -/
theorem drainCarry_middleSum (a b : Word) (fuel : Nat) (h : 2 ≤ fuel) :
    drainCarry fuel (middleSum (crossProducts a b)) 0 =
      (middleSum (crossProducts a b) % 2 ^ 32, middleSum (crossProducts a b) / 2 ^ 32) := by
  have hle := middleSum_le a b
  rw [drainCarry_eq _ _ _ (by omega), Nat.zero_add]

theorem middleColumn_sum_toNat (a b : Word) :
    (middleColumn (crossProducts a b)).1.toNat = middleSum (crossProducts a b) % 2 ^ 32 := by
  rw [middleColumn, drainCarry_middleSum a b 2 le_rfl, BitVec.toNat_ofNat, Nat.mod_mod]

theorem middleColumn_carry_toNat (a b : Word) :
    (middleColumn (crossProducts a b)).2.toNat = middleSum (crossProducts a b) / 2 ^ 32 := by
  have hle := middleSum_le a b
  rw [middleColumn, drainCarry_middleSum a b 2 le_rfl, BitVec.toNat_ofNat]
  exact Nat.mod_eq_of_lt (by omega)

theorem middleSum_eq (a b : Word) : middleSum (crossProducts a b) =
    (middleColumn (crossProducts a b)).2.toNat * 2 ^ 32 + (middleColumn (crossProducts a b)).1.toNat := by
  rw [middleColumn_sum_toNat, middleColumn_carry_toNat]
  exact (Nat.div_add_mod' _ _).symm

/-! ### Steps 5 and 6: the assembled product (R65, R66) -/

/-- The sum of step 5 that becomes `high`, before it is reduced to 64 bits (R65). -/
def highColumns (c : CrossProducts) : Nat :=
  (middleColumn c).2.toNat + (highHalf c.e).toNat + (highHalf c.f).toNat + (lowHalf c.g).toNat +
    (highHalf c.g).toNat * 2 ^ 32

/-- The sum of step 5 that becomes `low`, before it is reduced to 64 bits (R65). -/
def lowColumns (c : CrossProducts) : Nat :=
  (lowHalf c.d).toNat + (middleColumn c).1.toNat * 2 ^ 32

theorem lowColumns_lt (c : CrossProducts) : lowColumns c < 2 ^ 64 := by
  have hd := lowHalf_toNat_lt c.d
  have hsum := (middleColumn c).1.isLt
  rw [lowColumns]
  omega

/-- Before any reduction, the sums of step 5 are the exact product. -/
theorem columns_eq_product (a b : Word) :
    highColumns (crossProducts a b) * 2 ^ 64 + lowColumns (crossProducts a b) = a.toNat * b.toNat := by
  have hmiddle := middleSum_eq a b
  rw [middleSum] at hmiddle
  rw [crossProducts_sum a b, highColumns, lowColumns]
  generalize crossProducts a b = c at hmiddle ⊢
  have hd := halves_toNat c.d
  have he := halves_toNat c.e
  have hf := halves_toNat c.f
  have hg := halves_toNat c.g
  linarith

theorem highColumns_lt (a b : Word) : highColumns (crossProducts a b) < 2 ^ 64 := by
  have hproduct : a.toNat * b.toNat < 2 ^ 64 * 2 ^ 64 := Nat.mul_lt_mul'' a.isLt b.isLt
  have hcolumns := columns_eq_product a b
  omega

theorem assembleLow_toNat (c : CrossProducts) : (assembleLow c).toNat = lowColumns c :=
  (BitVec.toNat_ofNat _ _).trans (Nat.mod_eq_of_lt (lowColumns_lt c))

theorem assembleHigh_toNat (a b : Word) : (assembleHigh (crossProducts a b)).toNat = highColumns (crossProducts a b) :=
  (BitVec.toNat_ofNat _ _).trans (Nat.mod_eq_of_lt (highColumns_lt a b))

/-- Steps 1 to 6 give the exact product of the magnitudes (R66). -/
theorem wideMagnitude_wideMultiply (x y : Word) :
    wideMagnitude (wideMultiply x y) = x.toInt.natAbs * y.toInt.natAbs := by
  rw [wideMagnitude, wideMultiply, assembleHigh_toNat, assembleLow_toNat, columns_eq_product, magnitude_toNat,
    magnitude_toNat]

theorem wideMultiply_isNegative (x y : Word) : (wideMultiply x y).isNegative = (x.msb ^^ y.msb) :=
  resultIsNegative_eq x y

/-! ### Steps 7 and 8: rescaling and rounding (R67, R68) -/

theorem append_toNat (h l : HalfLimb) : (h ++ l).toNat = h.toNat * 2 ^ 32 + l.toNat := by
  rw [BitVec.toNat_append, ← Nat.shiftLeft_add_eq_or_of_lt l.isLt, Nat.shiftLeft_eq]

theorem rescale_toNat (p : WideProduct) : (rescale p).toNat = wideMagnitude p / 2 ^ 32 % 2 ^ 64 := by
  have hlow := p.low.isLt
  rw [rescale, append_toNat, lowHalf_toNat, highHalf_toNat, wideMagnitude]
  omega

theorem roundMagnitude_of_bit_set (raw low : Word) (h : low.getLsbD 31 = true) : roundMagnitude raw low = raw + 1 :=
  if_pos h

theorem roundMagnitude_of_bit_clear (raw low : Word) (h : low.getLsbD 31 = false) : roundMagnitude raw low = raw :=
  if_neg (by rw [roundingBit, h]; decide)

theorem bit31_eq_decide (w : Word) : w.getLsbD 31 = decide (w.toNat / 2 ^ 31 % 2 = 1) :=
  Nat.testBit_eq_decide_div_mod_eq

/-- Adding the rounding bit to the quotient by `2^32` rounds half up (R68). -/
theorem roundMagnitude_rescale_toNat (p : WideProduct) :
    (roundMagnitude (rescale p) p.low).toNat = (wideMagnitude p + 2 ^ 31) / 2 ^ 32 % 2 ^ 64 := by
  have hraw := rescale_toNat p
  have hbit := bit31_eq_decide p.low
  rw [wideMagnitude] at hraw ⊢
  cases hset : p.low.getLsbD 31 with
  | true =>
    have hhalf : p.low.toNat / 2 ^ 31 % 2 = 1 := of_decide_eq_true (hbit.symm.trans hset)
    have hone : (1 : Word).toNat = 1 := rfl
    rw [roundMagnitude_of_bit_set _ _ hset, BitVec.toNat_add, hraw, hone]
    omega
  | false =>
    have hhalf : ¬ p.low.toNat / 2 ^ 31 % 2 = 1 := of_decide_eq_false (hbit.symm.trans hset)
    rw [roundMagnitude_of_bit_clear _ _ hset, hraw]
    omega

/-- Steps 1 to 8 give the rounded magnitude modulo `2^64`. -/
theorem roundMagnitude_wideMultiply (x y : Word) :
    roundMagnitude (rescale (wideMultiply x y)) (wideMultiply x y).low = BitVec.ofNat 64 (roundedMagnitude x y) := by
  apply BitVec.eq_of_toNat_eq
  rw [roundMagnitude_rescale_toNat, wideMagnitude_wideMultiply, BitVec.toNat_ofNat, roundedMagnitude]

/-! ### Step 9: the sign (R69) and the closed form (R70) -/

theorem reattachSign_negative (raw : Word) : reattachSign true true raw = -raw := rfl

theorem reattachSign_positive (raw : Word) : reattachSign true false raw = raw := rfl

theorem reattachSign_zero (negative : Bool) : reattachSign true negative 0 = 0 := by
  cases negative with
  | true => exact neg64_zero
  | false => exact reattachSign_positive 0

theorem neg_ofNat (n : Nat) : -BitVec.ofNat 64 n = BitVec.ofInt 64 (-(n : Int)) := by
  rw [BitVec.ofInt_neg, BitVec.ofInt_natCast]

/-- The nine steps give the closed form (R70). -/
theorem mulResult_eq_closedFormProduct (x y : Word) : mulResult x y = closedFormProduct x y := by
  rw [mulResult_eq, roundMagnitude_wideMultiply, wideMultiply_isNegative, closedFormProduct]
  split
  next hsame => rw [hsame, Bool.xor_self, reattachSign_positive]
  next hdiff => rw [Bool.xor_iff_ne.mpr hdiff, reattachSign_negative, neg_ofNat]

theorem mulResult_of_msb_eq (x y : Word) (h : x.msb = y.msb) :
    mulResult x y = BitVec.ofNat 64 (roundedMagnitude x y) := by
  rw [mulResult_eq_closedFormProduct, closedFormProduct, if_pos h]

theorem mulResult_of_msb_ne (x y : Word) (h : x.msb ≠ y.msb) :
    mulResult x y = BitVec.ofInt 64 (-(roundedMagnitude x y : Int)) := by
  rw [mulResult_eq_closedFormProduct, closedFormProduct, if_neg h]

/-- A product that rounds to zero is `ZERO` under either sign: there is no negative zero (R69). -/
theorem mulResult_of_roundedMagnitude_eq_zero (x y : Word) (h : roundedMagnitude x y = 0) : mulResult x y = 0 := by
  rw [mulResult_eq, roundMagnitude_wideMultiply, h]
  exact reattachSign_zero _

/-! ### The obligations -/

/-- Settles O29: the sign decides between a word and its negation, and two flips of the sign are its exclusive or. -/
theorem signsAndMagnitudes : Obligations.SignsAndMagnitudes := by
  refine fun x y => ⟨magnitude_toNat x, magnitude_toNat_le x, magnitude_eq_ite x, ?_⟩
  rw [resultIsNegative_eq, msb_eq_bit63, msb_eq_bit63]

/-- Settles O30: the half-limbs are the quotient and the remainder of a number that is at most `2^63`. -/
theorem halfLimbsOfMagnitude : Obligations.HalfLimbsOfMagnitude := by
  intro x
  have hsplit := halves_toNat (magnitude x)
  have hle := magnitude_toNat_le x
  have hlow := lowHalf_toNat_lt (magnitude x)
  refine ⟨hsplit, by omega, by omega, fun htop => ?_⟩
  have hzero : (lowHalf (magnitude x)).toNat = 0 := by omega
  exact BitVec.eq_of_toNat_eq hzero

/-- Settles O31: the four cross-products are limb products, and a word is its two half-limbs. -/
theorem crossProductsAreExact : Obligations.CrossProductsAreExact := by
  intro a b
  refine ⟨limbProduct_toNat _ _, limbProduct_toNat _ _, limbProduct_toNat _ _, limbProduct_toNat _ _,
    crossProducts_sum a b, forall_crossProducts (fun p q => ?_) a b⟩
  exact ⟨limbProduct_toNat_le p q, highHalf_toNat _, lowHalf_toNat _, highHalf_limbProduct_le p q⟩

/-- Settles O32: the middle column stays below `3 * 2^32`, so two iterations divide it by `2^32`. -/
theorem middleCarryIsFullyDrained : Obligations.MiddleCarryIsFullyDrained := by
  refine ⟨fun a b => ⟨middleSum_le a b, middleColumn_sum_toNat a b, middleColumn_carry_toNat a b, middleSum_eq a b,
    ?carry, fun fuel hfuel => ?fuel⟩, by decide⟩
  case carry =>
    have hle := middleSum_le a b
    rw [middleColumn_carry_toNat]
    omega
  case fuel => rw [drainCarry_middleSum a b fuel hfuel, drainCarry_middleSum a b 2 le_rfl]

/-- Settles O34: the low half of `high` before the high half of `low` is the quotient by `2^32`, cut to 64 bits. -/
theorem rescaleTakesTheMiddle : Obligations.RescaleTakesTheMiddle :=
  fun p => ⟨rfl, rescale_toNat p⟩

/-- Settles O35: bit 31 of `low` says whether the remainder by `2^32` is at least one half. -/
theorem roundingIsHalfUp : Obligations.RoundingIsHalfUp :=
  ⟨roundMagnitude_of_bit_set, roundMagnitude_of_bit_clear, roundMagnitude_rescale_toNat⟩

/-- Settles O36: `MUL` responds with what step 9 makes of the rounded magnitude, and both signs of zero are `ZERO`. -/
theorem signIsReattached : Obligations.SignIsReattached := by
  intro x y p raw
  have hmul : AnswersWith (.mul x y) (.ok (reattachSign true p.isNegative raw)) :=
    mulResult_eq x y ▸ answersWith_mul x y
  refine ⟨fun hneg => ?negative, fun hpos => ?positive, fun hzero => ?zero⟩
  case negative => rwa [hneg, reattachSign_negative] at hmul
  case positive => rwa [hpos, reattachSign_positive] at hmul
  case zero => rwa [hzero, reattachSign_zero] at hmul

/-- Settles O37: the steps keep the exact product up to the rounding, and the closed form has a case for each sign. -/
theorem mulIsRoundedProduct : Obligations.MulIsRoundedProduct := by
  refine ⟨fun w hop => ?decodes,
    fun x y => ⟨mulResult x y, answersWith_mul x y, mulResult_eq x y, ?agree, ?differ⟩⟩
  case decodes => rw [decode_of_opField_eq w 7 hop, decodeFields_mul]
  case agree =>
    rintro (hsame | hzero)
    · exact mulResult_of_msb_eq x y (by rwa [msb_eq_bit63, msb_eq_bit63])
    · rw [hzero]
      exact mulResult_of_roundedMagnitude_eq_zero x y hzero
  case differ =>
    intro hdiff
    exact mulResult_of_msb_ne x y (by rwa [msb_eq_bit63, msb_eq_bit63])

end Sys2Proof.Machine
end

section
/-!
PROOF. Exceptions (R77 to R79). A request word is one of three things: a reserved operation code, a reserved selector of
`CONST`, or a defined operation. The response to it is `IllegalOp`, `IllegalConst` or a result, accordingly.
-/

namespace Sys2Proof.Machine

/-! ### What a request word decodes to, by its operation code and selector -/

/-- The reserved operation codes are those from 8 on (R42). -/
theorem decodeFields_of_eight_le (op : BitVec 4) (a b : Word) (h : 8 ≤ op.toNat) :
    decodeFields op a b = .error (.illegalOp op) := by
  unfold decodeFields
  split
  case h_9 => rfl
  all_goals omega

/-- Each selector below 5 names a constant (R49). -/
theorem exists_decodeConst_of_lt_five (sel : BitVec 3) (h : sel.toNat < 5) : ∃ i, decodeConst sel = .ok i := by
  unfold decodeConst
  split
  case h_6 =>
    simp only [imp_false] at *
    omega
  all_goals exact ⟨_, rfl⟩

/-- Each operation code below 8 has an operation, `CONST` under the condition that its selector has (R39, R47). -/
theorem exists_decodeFields_of_lt_eight (op : BitVec 4) (a b : Word) (hop : op.toNat < 8)
    (hsel : op.toNat = 1 → (selOperand a).toNat < 5) : ∃ i, decodeFields op a b = .ok i := by
  unfold decodeFields
  split
  case h_2 hconst => exact exists_decodeConst_of_lt_five _ (hsel hconst)
  case h_9 =>
    simp only [imp_false] at *
    omega
  all_goals exact ⟨_, rfl⟩

/-! ### The response to a waiting request -/

/-- Every operation answers, with a result and never with an error (R77). -/
theorem exists_answersWith_ok (i : Instr) : ∃ x, AnswersWith i (.ok x) := by
  obtain ⟨x, hx⟩ := exec_responds i
  exact ⟨x, answersWith_of_exec_eq_respond i _ hx⟩

/-- A waiting request that decodes gets its operation's response from the next step, and nothing else changes (R10). -/
theorem step_of_decode_eq_ok (s : State) (pre post : List Entry) (w : ReqWord) (i : Instr) (r : Response)
    (hw : Waits s pre w post) (hd : decode w = .ok i) (hi : AnswersWith i r) :
    step s = .next (answered s pre w r post) := by
  obtain ⟨hedges, hq, hpre⟩ := hw
  have hold : oldestPending s.inflight = some w := hq ▸ oldestPending_append pre post w hpre
  calc step s = serve s := by simp only [step, advance, hedges]
    _ = exec i s := by simp only [serve, hold, hd]
    _ = .next (answered s pre w r post) := hi s pre post w hq hpre

/-- The kind of response the rules give a request word: an error for a reserved operation code (R78) or selector (R79),
a result for everything else (R77). -/
inductive RespondsByFields (w : ReqWord) : Response → Prop where
  | illegalOp (hop : 8 ≤ (opField w).toNat) : RespondsByFields w .illegalOp
  | illegalConst (hop : (opField w).toNat = 1) (hsel : 5 ≤ (selOperand (aField w)).toNat) :
      RespondsByFields w .illegalConst
  | ok (x : Word) (hop : (opField w).toNat < 8)
      (hsel : (opField w).toNat = 1 → (selOperand (aField w)).toNat < 5) : RespondsByFields w (.ok x)

/-- The step answers a waiting request, whatever its bits, with a response of the kind its fields call for. -/
theorem step_respondsByFields (s : State) (pre post : List Entry) (w : ReqWord) (hw : Waits s pre w post) :
    ∃ r, step s = .next (answered s pre w r post) ∧ RespondsByFields w r := by
  by_cases hop : 8 ≤ (opField w).toNat
  · have hd : decode w = .error (.illegalOp (opField w)) := decodeFields_of_eight_le _ _ _ hop
    exact ⟨.illegalOp, step_of_decode_eq_error s pre post w _ hw hd, .illegalOp hop⟩
  by_cases hsel : (opField w).toNat = 1 ∧ 5 ≤ (selOperand (aField w)).toNat
  · obtain ⟨hconst, hreserved⟩ := hsel
    have hd := (decode_const_of_selOperand_eq w _ (BitVec.eq_of_toNat_eq hconst) rfl).trans
      (decodeConst_of_five_le _ hreserved)
    exact ⟨.illegalConst, step_of_decode_eq_error s pre post w _ hw hd, .illegalConst hconst hreserved⟩
  · have hop : (opField w).toNat < 8 := by omega
    have hsel : (opField w).toNat = 1 → (selOperand (aField w)).toNat < 5 := by omega
    obtain ⟨i, hd⟩ := exists_decodeFields_of_lt_eight _ _ (bField w) hop hsel
    obtain ⟨x, hx⟩ := exists_answersWith_ok i
    exact ⟨.ok x, step_of_decode_eq_ok s pre post w i _ hw hd hx, .ok x hop hsel⟩

section
variable {w : ReqWord} {r : Response} (h : RespondsByFields w r)
include h

/-- Status 1 is the answer to the reserved operation codes and to nothing else (R78). -/
theorem RespondsByFields.status_eq_one_iff : r.status = 1 ↔ 8 ≤ (opField w).toNat := by
  cases h with
  | illegalOp hop => exact iff_of_true rfl hop
  | illegalConst hop _ => exact iff_of_false (by decide) (by omega)
  | ok x hop _ => exact iff_of_false (by simp [Response.status]) (by omega)

/-- Status 2 is the answer to `CONST` with a reserved selector and to nothing else (R79). -/
theorem RespondsByFields.status_eq_two_iff :
    r.status = 2 ↔ (opField w).toNat = 1 ∧ 5 ≤ (selOperand (aField w)).toNat := by
  cases h with
  | illegalOp hop => exact iff_of_false (by decide) (by omega)
  | illegalConst hop hsel => exact iff_of_true rfl ⟨hop, hsel⟩
  | ok x hop hsel => exact iff_of_false (by simp [Response.status]) (by omega)

/-- Status 0 is the answer to every defined operation (R77). -/
theorem RespondsByFields.status_eq_zero (hop : (opField w).toNat < 8)
    (hsel : (opField w).toNat = 1 → (selOperand (aField w)).toNat < 5) : r.status = 0 := by
  cases h with
  | illegalOp hreserved => omega
  | illegalConst hconst hreserved => omega
  | ok x _ _ => rfl

end

/-- An error response carries 0 as its result (R38). -/
theorem Response.wire_of_status_ne_zero (r : Response) (h : r.status ≠ 0) : r.wire = 0 := by
  cases r with
  | ok x => exact absurd rfl h
  | illegalOp => rfl
  | illegalConst => rfl

/-! ### The obligations -/

/-- Settles O13: status 1 marks the reserved operation codes, and an error response carries 0. -/
theorem reservedOpIsAnsweredIllegalOp : Obligations.ReservedOpIsAnsweredIllegalOp := by
  intro s pre post w hw
  obtain ⟨r, hstep, hr⟩ := step_respondsByFields s pre post w hw
  refine ⟨r, hstep, hr.status_eq_one_iff, fun hop => r.wire_of_status_ne_zero ?_⟩
  rw [hr.status_eq_one_iff.mpr hop]
  decide

/-- Settles O14: status 2 marks `CONST` with a reserved selector, and an error response carries 0. -/
theorem reservedSelectorIsAnsweredIllegalConst : Obligations.ReservedSelectorIsAnsweredIllegalConst := by
  intro s pre post w hw
  obtain ⟨r, hstep, hr⟩ := step_respondsByFields s pre post w hw
  refine ⟨r, hstep, hr.status_eq_two_iff, fun hsel => r.wire_of_status_ne_zero ?_⟩
  rw [hr.status_eq_two_iff.mpr hsel]
  decide

/-- Settles O15: a request with neither a reserved operation code nor a reserved selector is answered with a result. -/
theorem definedOperationsRaiseNothing : Obligations.DefinedOperationsRaiseNothing := by
  intro s pre post w hw hop hsel
  obtain ⟨r, hstep, hr⟩ := step_respondsByFields s pre post w hw
  exact ⟨r, hstep, hr.status_eq_zero hop hsel⟩

end Sys2Proof.Machine
end

section
/-!
PROOF. The request encoding (R37 to R44). A mask acts on each field of a request word by itself, so the named bits of an
operation are its operation code and a mask on each operand; the decoder compares exactly these.
-/

namespace Sys2Proof.Machine

/-! ### The fields of a masked request word -/

theorem packRequest_and (op op' : BitVec 4) (a a' b b' : Word) :
    packRequest op a b &&& packRequest op' a' b' = packRequest (op &&& op') (a &&& a') (b &&& b') :=
  BitVec.and_append.trans (congrArg ((op &&& op') ++ ·) BitVec.and_append)

theorem packRequest_inj (op op' : BitVec 4) (a a' b b' : Word) :
    packRequest op a b = packRequest op' a' b' ↔ op = op' ∧ a = a' ∧ b = b' := by
  refine ⟨fun h => ⟨?op, ?a, ?b⟩, fun ⟨hop, ha, hb⟩ => by rw [hop, ha, hb]⟩
  case op => simpa only [opField_packRequest] using congrArg opField h
  case a => simpa only [aField_packRequest] using congrArg aField h
  case b => simpa only [bField_packRequest] using congrArg bField h

/-- The bits of the first operand that R40 names for an operation. -/
def namedBitsA (i : Instr) : Word := aField (namedBits i)

/-- The bits of the second operand that R40 names for an operation. -/
def namedBitsB (i : Instr) : Word := bField (namedBits i)

theorem namedBits_eq (i : Instr) : namedBits i = packRequest 0xF (namedBitsA i) (namedBitsB i) := by
  have hop : opField (namedBits i) = 0xF := by cases i <;> exact opField_packRequest _ _ _
  rw [namedBitsA, namedBitsB, ← hop, packRequest_fields]

/-- The named bits of a word are those of the canonical word when the code and the masked operands agree. -/
theorem and_namedBits_eq_encode_iff (w : ReqWord) (i : Instr) :
    w &&& namedBits i = encode i ↔
      opField w = opCode i ∧ aField w &&& namedBitsA i = aOperand i ∧ bField w &&& namedBitsB i = bOperand i := by
  have hop : opField w &&& 0xF = opField w := BitVec.and_allOnes
  conv_lhs => rw [← packRequest_fields w, namedBits_eq, packRequest_and, encode, packRequest_inj, hop]

/-! ### The operand slices as masks -/

/-- A slice from bit 0 on is a mask of ones. -/
theorem setWidth_extractLsb'_zero (a : Word) (n : Nat) (h : n ≤ 64) :
    (a.extractLsb' 0 n).setWidth 64 = a &&& BitVec.ofNat 64 (2 ^ n - 1) := by
  apply BitVec.eq_of_toNat_eq
  have hn : 2 ^ n ≤ 2 ^ 64 := Nat.pow_le_pow_right (by decide) h
  have hmod : a.toNat % 2 ^ n < 2 ^ n := Nat.mod_lt _ (by positivity)
  rw [BitVec.toNat_setWidth, BitVec.extractLsb'_toNat, Nat.shiftRight_zero, BitVec.toNat_and, BitVec.toNat_ofNat,
    Nat.mod_eq_of_lt (by omega : a.toNat % 2 ^ n < 2 ^ 64), Nat.mod_eq_of_lt (by omega : 2 ^ n - 1 < 2 ^ 64),
    Nat.and_two_pow_sub_one_eq_mod]

theorem selOperand_setWidth (a : Word) : (selOperand a).setWidth 64 = a &&& 0x7 :=
  setWidth_extractLsb'_zero a 3 (by decide)

theorem intOperand_setWidth (a : Word) : (intOperand a).setWidth 64 = a &&& 0xFFFFFFFF :=
  setWidth_extractLsb'_zero a 32 (by decide)

theorem selOperand_eq_iff (a : Word) (sel : BitVec 3) : selOperand a = sel ↔ a &&& 0x7 = sel.setWidth 64 := by
  rw [← selOperand_setWidth]
  refine ⟨congrArg _, fun h => ?_⟩
  simpa [BitVec.setWidth_setWidth_of_le] using congrArg (BitVec.setWidth 3) h

theorem intOperand_eq_iff (a : Word) (n : HalfLimb) : intOperand a = n ↔ a &&& 0xFFFFFFFF = n.setWidth 64 := by
  rw [← intOperand_setWidth]
  refine ⟨congrArg _, fun h => ?_⟩
  simpa [BitVec.setWidth_setWidth_of_le] using congrArg (BitVec.setWidth 32) h

theorem and_ones_eq_iff (a x : Word) : a &&& 0xFFFFFFFFFFFFFFFF = x ↔ a = x := by
  have hones : a &&& 0xFFFFFFFFFFFFFFFF = a := BitVec.and_allOnes
  rw [hones]

theorem and_zeros (b : Word) : b &&& 0 = 0 :=
  BitVec.and_zero

theorem intOperand_of_setWidth (n : HalfLimb) : intOperand (n.setWidth 64) = n := by
  apply BitVec.eq_of_toNat_eq
  have hn := n.isLt
  rw [intOperand, BitVec.extractLsb'_toNat, BitVec.toNat_setWidth, Nat.shiftRight_zero]
  omega

/-! ### The decoder and the named bits -/

theorem decodeFields_todbl (a b : Word) : decodeFields 4 a b = .ok (.todbl a) := rfl

theorem decodeConst_eq_ok_one_iff (sel : BitVec 3) : decodeConst sel = .ok .constOne ↔ sel = 0 := by
  revert sel; decide

theorem decodeConst_eq_ok_zero_iff (sel : BitVec 3) : decodeConst sel = .ok .constZero ↔ sel = 1 := by
  revert sel; decide

theorem decodeConst_eq_ok_epsilon_iff (sel : BitVec 3) : decodeConst sel = .ok .constEpsilon ↔ sel = 2 := by
  revert sel; decide

theorem decodeConst_eq_ok_maximum_iff (sel : BitVec 3) : decodeConst sel = .ok .constMaximum ↔ sel = 3 := by
  revert sel; decide

theorem decodeConst_eq_ok_minimum_iff (sel : BitVec 3) : decodeConst sel = .ok .constMinimum ↔ sel = 4 := by
  revert sel; decide

/-- The selector decides between operations of code 1 only (R39). -/
theorem opCode_of_decodeConst (sel : BitVec 3) (i : Instr) (h : decodeConst sel = .ok i) : opCode i = 1 := by
  unfold decodeConst at h
  split at h <;> cases h <;> rfl

/-- A request decodes to an operation of its own operation code (R39). -/
theorem opCode_of_decodeFields (op : BitVec 4) (a b : Word) (i : Instr) (h : decodeFields op a b = .ok i) :
    op = opCode i := by
  unfold decodeFields at h
  split at h
  case h_2 hop => rw [opCode_of_decodeConst _ i h]; exact BitVec.eq_of_toNat_eq hop
  case h_9 => cases h
  all_goals
    cases h
    exact BitVec.eq_of_toNat_eq ‹op.toNat = _›

/-- Under its own code, an operation is decoded from the named bits of the operands alone (R40, R41). -/
theorem decodeFields_opCode_iff (i : Instr) (a b : Word) :
    decodeFields (opCode i) a b = .ok i ↔ a &&& namedBitsA i = aOperand i ∧ b &&& namedBitsB i = bOperand i := by
  cases i <;>
    simp only [namedBitsA, namedBitsB, namedBits, aField_packRequest, bField_packRequest, opCode, aOperand, bOperand,
      and_ones_eq_iff, and_zeros, and_true]
  case raw x => rw [decodeFields_raw, Except.ok.injEq, Instr.raw.injEq]
  case constOne => exact (decodeConst_eq_ok_one_iff _).trans (selOperand_eq_iff a 0)
  case constZero => exact (decodeConst_eq_ok_zero_iff _).trans (selOperand_eq_iff a 1)
  case constEpsilon => exact (decodeConst_eq_ok_epsilon_iff _).trans (selOperand_eq_iff a 2)
  case constMaximum => exact (decodeConst_eq_ok_maximum_iff _).trans (selOperand_eq_iff a 3)
  case constMinimum => exact (decodeConst_eq_ok_minimum_iff _).trans (selOperand_eq_iff a 4)
  case fromint n => rw [decodeFields_fromint, ← intOperand_eq_iff, Except.ok.injEq, Instr.fromint.injEq]
  case toint x => rw [decodeFields_toint, Except.ok.injEq, Instr.toint.injEq]
  case todbl x => rw [decodeFields_todbl, Except.ok.injEq, Instr.todbl.injEq]
  case add x y => rw [decodeFields_add, Except.ok.injEq, Instr.add.injEq]
  case sub x y => rw [decodeFields_sub, Except.ok.injEq, Instr.sub.injEq]
  case mul x y => rw [decodeFields_mul, Except.ok.injEq, Instr.mul.injEq]

theorem decode_eq_ok_iff (w : ReqWord) (i : Instr) :
    decode w = .ok i ↔
      opField w = opCode i ∧ aField w &&& namedBitsA i = aOperand i ∧ bField w &&& namedBitsB i = bOperand i := by
  rw [← decodeFields_opCode_iff]
  refine ⟨fun h => ?_, fun ⟨hop, h⟩ => (decode_of_opField_eq w _ hop).trans h⟩
  have hop := opCode_of_decodeFields _ _ _ i h
  exact ⟨hop, (decode_of_opField_eq w _ hop).symm.trans h⟩

/-- What a request word decodes to, by its operation code and selector: the three cases exclude each other. -/
inductive DecodesByFields (w : ReqWord) : Except Trap Instr → Prop where
  | illegalOp (hop : 8 ≤ (opField w).toNat) : DecodesByFields w (.error (.illegalOp (opField w)))
  | illegalConst (hop : (opField w).toNat = 1) (hsel : 5 ≤ (selOperand (aField w)).toNat) :
      DecodesByFields w (.error (.illegalConst (selOperand (aField w))))
  | ok (i : Instr) (hop : (opField w).toNat < 8)
      (hsel : (opField w).toNat = 1 → (selOperand (aField w)).toNat < 5) : DecodesByFields w (.ok i)

theorem decode_decodesByFields (w : ReqWord) : DecodesByFields w (decode w) := by
  by_cases hop : 8 ≤ (opField w).toNat
  · rw [decode, decodeFields_of_eight_le _ _ _ hop]
    exact .illegalOp hop
  by_cases hsel : (opField w).toNat = 1 ∧ 5 ≤ (selOperand (aField w)).toNat
  · obtain ⟨hconst, hreserved⟩ := hsel
    rw [decode_const_of_selOperand_eq w _ (BitVec.eq_of_toNat_eq hconst) rfl, decodeConst_of_five_le _ hreserved]
    exact .illegalConst hconst hreserved
  · have hop : (opField w).toNat < 8 := by omega
    have hsel : (opField w).toNat = 1 → (selOperand (aField w)).toNat < 5 := by omega
    obtain ⟨i, hi⟩ := exists_decodeFields_of_lt_eight _ _ (bField w) hop hsel
    rw [decode, hi]
    exact .ok i hop hsel

/-! ### The spelling of a request word -/

theorem hexDigit_spellDigit (d : Nat) (h : d < 16) : hexDigit (spellDigit d) = some d := by
  have hall : ∀ d : Fin 16, hexDigit (spellDigit d) = some d.val := by decide
  exact hall ⟨d, h⟩

/-- Reading one more digit at the end multiplies by the base and adds it. -/
theorem readDigits_append_digit (digit : Char → Option Nat) (base acc : Nat) (cs : List Char) (c : Char) (d v : Nat)
    (hc : digit c = some d) (hv : readDigits digit base acc cs = some v) :
    readDigits digit base acc (cs ++ [c]) = some (v * base + d) := by
  induction cs generalizing acc with
  | nil =>
    obtain rfl : acc = v := Option.some.inj hv
    simp only [List.nil_append, readDigits, hc]
  | cons c' cs ih =>
    rw [List.cons_append]
    unfold readDigits at hv ⊢
    split at hv
    · cases hv
    next d' hd' => exact ih _ hv

theorem spellHex_length (count n : Nat) : (spellHex count n).length = count := by
  induction count generalizing n with
  | zero => rfl
  | succ count ih => rw [spellHex, List.length_append, ih, List.length_singleton]

/-- `count` digits spell a number modulo `16 ^ count`. -/
theorem readDigits_spellHex (count n : Nat) : readDigits hexDigit 16 0 (spellHex count n) = some (n % 16 ^ count) := by
  induction count generalizing n with
  | zero => rw [spellHex, readDigits, pow_zero, Nat.mod_one]
  | succ count ih =>
    have hdigit := hexDigit_spellDigit (n % 16) (Nat.mod_lt n (by decide))
    rw [spellHex, readDigits_append_digit _ _ _ _ _ _ _ hdigit (ih (n / 16)), pow_succ', Nat.mod_mul]
    congr 1
    omega

/-! ### The wires of a response -/

theorem Response.word_status (r : Response) : r.word.extractLsb' 64 2 = r.status :=
  BitVec.extractLsb'_append_eq_left

theorem Response.word_wire (r : Response) : r.word.extractLsb' 0 64 = r.wire :=
  BitVec.extractLsb'_append_eq_right

/-! ### The obligations -/

/-- Settles O1: the fields of the canonical word are the code and the operands, which decode to the operation. -/
theorem decodeInvertsEncode : Obligations.DecodeInvertsEncode := by
  intro i _
  rw [encode, decode_packRequest]
  cases i with
  | fromint n => exact congrArg (fun m => Except.ok (Instr.fromint m)) (intOperand_of_setWidth n)
  | _ => rfl

/-- Settles O2: both sides say that the operation code is the operation's and that the masked operands are its
canonical ones. -/
theorem decodeReadsExactlyTheNamedBits : Obligations.DecodeReadsExactlyTheNamedBits := by
  intro w i
  rw [decode_eq_ok_iff, and_namedBits_eq_encode_iff]

/-- Settles O3: the three cases of the decoder, each with its condition on the fields, exclude each other. -/
theorem decodeIsTotal : Obligations.DecodeIsTotal := by
  intro w
  have hw := decode_decodesByFields w
  generalize decode w = d at hw ⊢
  cases hw with
  | illegalOp hop =>
    exact ⟨iff_of_true rfl hop, iff_of_false (by simp) (by omega), iff_of_false (by simp) (by omega),
      fun t ht => .inl (Except.error.inj ht).symm⟩
  | illegalConst hop hsel =>
    exact ⟨iff_of_false (by simp) (by omega), iff_of_true rfl ⟨hop, hsel⟩, iff_of_false (by simp) (by omega),
      fun t ht => .inr (Except.error.inj ht).symm⟩
  | ok i hop hsel =>
    exact ⟨iff_of_false (by simp) (by omega), iff_of_false (by simp) (by omega), iff_of_true ⟨i, rfl⟩ ⟨hop, hsel⟩,
      fun t ht => nomatch ht⟩

/-- Settles O4: each word is evaluated. -/
theorem sampleWordsDecode : Obligations.SampleWordsDecode := by
  unfold Obligations.SampleWordsDecode
  decide

/-- Settles O5: the 33 digits of a number below `16 ^ 33 = 2 ^ 132` read back as it. -/
theorem requestSpellingReadsBack : Obligations.RequestSpellingReadsBack := by
  intro w
  have hlength : (spellRequest w).length = 33 := spellHex_length 33 w.toNat
  have hsmall : w.toNat % 16 ^ 33 = w.toNat := Nat.mod_eq_of_lt w.isLt
  refine ⟨hlength, ?_⟩
  rw [readRequest, if_pos hlength, spellRequest, readDigits_spellHex, hsmall, Option.map_some, BitVec.ofNat_toNat,
    BitVec.setWidth_eq]

/-- Settles O6: the wires are the two parts of the word, and each kind of response has its own status. -/
theorem responseWordFields : Obligations.ResponseWordFields := by
  intro r
  refine ⟨r.word_status, r.word_wire, ?_⟩
  cases r <;> simp [Response.status, Response.wire]

end Sys2Proof.Machine
end

section
/-!
PROOF. The unit's step (R10, R47, R82, R90). The decoder and the rules' own response split a request word by the same
fields, so the step answers the oldest waiting request with `answerOf` of it. Everything the unit does to its queue is
one function of the queue, `answerNext`.
-/

namespace Sys2Proof.Machine

/-! ### The response the rules give a word, by its fields -/

/-- What decoding came to gives the response `r`: the operation ends in it, or it is the exception's. -/
def GivesResponse (d : Except Trap Instr) (r : Response) : Prop :=
  match d with
  | .ok i => ∀ s, exec i s = .next (respond r s)
  | .error t => trapResponse t = r

/-- An operation code is one of the eight defined ones or reserved (R39, R42). -/
theorem op_cases (op : BitVec 4) :
    op = 0 ∨ op = 1 ∨ op = 2 ∨ op = 3 ∨ op = 4 ∨ op = 5 ∨ op = 6 ∨ op = 7 ∨ 8 ≤ op.toNat := by
  revert op; decide

theorem decodeConst_givesResponse (sel : BitVec 3) : GivesResponse (decodeConst sel) (constAnswer sel) := by
  have hsel : sel = 0 ∨ sel = 1 ∨ sel = 2 ∨ sel = 3 ∨ sel = 4 ∨ sel = 5 ∨ sel = 6 ∨ sel = 7 := by
    revert sel; decide
  rcases hsel with rfl | rfl | rfl | rfl | rfl | rfl | rfl | rfl
  · exact exec_constOne
  · exact exec_constZero
  · exact exec_constEpsilon
  · exact exec_constMaximum
  · exact exec_constMinimum
  all_goals rfl

theorem fromIntResult_eq_ofInt (n : HalfLimb) : fromIntResult n = BitVec.ofInt 64 (n.toInt * 2 ^ 32) := by
  rw [← fromIntResult_toInt, BitVec.ofInt_toInt]

theorem toIntResult_eq_ofInt (x : Word) : toIntResult x = BitVec.ofInt 64 (Int.fdiv x.toInt (2 ^ 32)) := by
  rw [Int.fdiv_eq_ediv_of_nonneg _ (by decide), ← toIntResult_toInt, BitVec.ofInt_toInt]

theorem answerOf_of_eight_le (w : ReqWord) (h : 8 ≤ (opField w).toNat) : answerOf w = .illegalOp := by
  unfold answerOf
  split
  case h_9 => rfl
  all_goals omega

section
variable (a b : Word)

theorem answerOf_raw : answerOf (packRequest 0 a b) = .ok a := by simp [answerOf]
theorem answerOf_const : answerOf (packRequest 1 a b) = constAnswer (selOperand a) := by simp [answerOf]
theorem answerOf_fromint : answerOf (packRequest 2 a b) = .ok (fromIntResult (intOperand a)) := by
  simp [answerOf, fromIntResult_eq_ofInt]
theorem answerOf_toint : answerOf (packRequest 3 a b) = .ok (toIntResult a) := by
  simp [answerOf, toIntResult_eq_ofInt]
theorem answerOf_todbl : answerOf (packRequest 4 a b) = .ok (toDoubleResult a) := by simp [answerOf]
theorem answerOf_add : answerOf (packRequest 5 a b) = .ok (addResult a b) := by
  simp [answerOf, addResult_eq_ofInt]
theorem answerOf_sub : answerOf (packRequest 6 a b) = .ok (subResult a b) := by
  simp [answerOf, subResult_eq_ofInt_toInt]
theorem answerOf_mul : answerOf (packRequest 7 a b) = .ok (mulResult a b) := by
  simp [answerOf, mulResult_eq_closedFormProduct]

end

/-- The decoder and the rules' response agree on every request word (R39, R47). -/
theorem decode_givesResponse (w : ReqWord) : GivesResponse (decode w) (answerOf w) := by
  rw [← packRequest_fields w, decode_packRequest]
  generalize opField w = op, aField w = a, bField w = b
  rcases op_cases op with rfl | rfl | rfl | rfl | rfl | rfl | rfl | rfl | hreserved
  · rw [decodeFields_raw, answerOf_raw]; exact exec_raw a
  · rw [decodeFields_const, answerOf_const]; exact decodeConst_givesResponse _
  · rw [decodeFields_fromint, answerOf_fromint]; exact exec_fromint _
  · rw [decodeFields_toint, answerOf_toint]; exact exec_toint a
  · rw [decodeFields_todbl, answerOf_todbl]; exact exec_todbl a
  · rw [decodeFields_add, answerOf_add]; exact exec_add a b
  · rw [decodeFields_sub, answerOf_sub]; exact exec_sub a b
  · rw [decodeFields_mul, answerOf_mul]; exact exec_mul a b
  · rw [decodeFields_of_eight_le op a b hreserved,
      answerOf_of_eight_le _ (by rwa [opField_packRequest])]
    rfl

theorem serve_of_oldestPending (s : State) (w : ReqWord) (h : oldestPending s.inflight = some w) :
    serve s = .next (respond (answerOf w) s) := by
  have hw := decode_givesResponse w
  unfold serve
  rw [h]
  cases hd : decode w with
  | ok i =>
    rw [hd] at hw
    simpa only [hd] using hw s
  | error t =>
    obtain ht : trapResponse t = answerOf w := by rwa [hd] at hw
    simp only [hd, raise, ht]

/-! ### The unit's work as a function of the queue -/

/-- The queue after the unit's work: its oldest waiting request, if there is one, has the response of the rules. -/
def answerNext (q : List Entry) : List Entry :=
  match oldestPending q with
  | none => q
  | some w => answerOldest (answerOf w) q

theorem answerNext_cons_of_pending (e : Entry) (q : List Entry) (h : e.rsp = none) :
    answerNext (e :: q) = { e with rsp := some (answerOf e.req) } :: q := by
  simp only [answerNext, oldestPending, h, answerOldest]

theorem answerNext_cons_of_answered (e : Entry) (q : List Entry) (r : Response) (h : e.rsp = some r) :
    answerNext (e :: q) = e :: answerNext q := by
  simp only [answerNext, oldestPending, h]
  split
  · rfl
  · simp only [answerOldest, h]

@[simp] theorem answerNext_length (q : List Entry) : (answerNext q).length = q.length := by
  unfold answerNext
  split
  · rfl
  · exact answerOldest_length _ q

@[simp] theorem answerNext_map_req (q : List Entry) : (answerNext q).map Entry.req = q.map Entry.req := by
  unfold answerNext
  split
  · rfl
  · exact answerOldest_map_req _ q

theorem serve_eq_answerNext (s : State) : serve s = .next { s with inflight := answerNext s.inflight } := by
  cases h : oldestPending s.inflight with
  | none => simp only [serve_of_none s h, answerNext, h]
  | some w => simp only [serve_of_oldestPending s w h, respond, answerNext, h]

theorem step_eq_serve (s : State) (h : s.edges = []) : step s = serve s := by
  simp only [step, advance, h]

theorem step_eq_answerNext (s : State) (h : s.edges = []) :
    step s = .next { s with inflight := answerNext s.inflight } :=
  (step_eq_serve s h).trans (serve_eq_answerNext s)

/-! ### A step that stops -/

/-- The next edge withdraws or changes a request that the host must still present (R23 item 2). -/
def WithdrawsRequest (s : State) : Prop :=
  ∃ e rest w, s.edges = e :: rest ∧ e.rst = false ∧ s.held = some w ∧
    ¬(e.reqValid = true ∧ packRequest e.reqOp e.reqA e.reqB = w)

theorem requestHeld_eq_false_iff (e : Edge) (s : State) :
    requestHeld e s = false ↔ ∃ w, s.held = some w ∧ ¬(e.reqValid = true ∧ portRequest e = w) := by
  unfold requestHeld
  split
  next h => simp [h]
  next w h => simp [h]

/-- The queue after the unit's work at an edge, if it finishes a request in time (log 2). -/
def workAtEdge (e : Edge) (q : List Entry) : List Entry :=
  if e.unitAnswers then answerNext q else q

theorem answerAtEdge_eq_workAtEdge (e : Edge) (s : State) :
    answerAtEdge e s = .next { s with inflight := workAtEdge e s.inflight } := by
  unfold answerAtEdge workAtEdge
  split
  · exact serve_eq_answerNext s
  · rfl

/-- The state after an edge with `rst = 0` that finds the host's request held. -/
def afterEdge (e : Edge) (s : State) : State :=
  deliverAtEdge e { acceptAtEdge e s with inflight := workAtEdge e (acceptAtEdge e s).inflight }

theorem clockEdge_of_rst (e : Edge) (s : State) (h : e.rst = true) : clockEdge e s = .next (clear s) := by
  rw [clockEdge, if_pos h]

theorem clockEdge_of_held (e : Edge) (s : State) (hr : e.rst = false) (hh : requestHeld e s = true) :
    clockEdge e s = .next (afterEdge e s) := by
  simp only [clockEdge, hr, hh, answerAtEdge_eq_workAtEdge, afterEdge, Bool.false_eq_true, if_true, if_false]

theorem clockEdge_of_not_held (e : Edge) (s : State) (hr : e.rst = false) (hh : requestHeld e s = false) :
    clockEdge e s = .refused .requestNotHeld := by
  simp only [clockEdge, hr, hh, Bool.false_eq_true, if_false]

theorem step_eq_clockEdge (s : State) (e : Edge) (rest : List Edge) (h : s.edges = e :: rest) :
    step s = clockEdge e { s with edges := rest } := by
  rw [step, advance, h]

theorem withdrawsRequest_iff (s : State) (e : Edge) (rest : List Edge) (h : s.edges = e :: rest) :
    WithdrawsRequest s ↔ e.rst = false ∧ requestHeld e { s with edges := rest } = false := by
  rw [requestHeld_eq_false_iff]
  constructor
  · rintro ⟨e', rest', w, hedges, hr, hheld⟩
    obtain ⟨rfl, rfl⟩ := List.cons.inj (h.symm.trans hedges)
    exact ⟨hr, w, hheld⟩
  · rintro ⟨hr, w, hheld⟩
    exact ⟨e, rest, w, h, hr, hheld⟩

/-- A step answers a next state, or is refused where the host withdraws its request (R23 item 2, U16). -/
theorem step_cases (s : State) :
    (∃ t, step s = .next t) ∧ ¬WithdrawsRequest s ∨ step s = .refused .requestNotHeld ∧ WithdrawsRequest s := by
  cases hedges : s.edges with
  | nil =>
    refine .inl ⟨⟨_, step_eq_answerNext s hedges⟩, ?_⟩
    rintro ⟨e, rest, w, he, -⟩
    cases hedges.symm.trans he
  | cons e rest =>
    have hstep := step_eq_clockEdge s e rest hedges
    rw [withdrawsRequest_iff s e rest hedges]
    cases hr : e.rst with
    | true => exact .inl ⟨⟨_, hstep.trans (clockEdge_of_rst e _ hr)⟩, fun h => Bool.noConfusion h.1⟩
    | false =>
      cases hh : requestHeld e { s with edges := rest } with
      | true => exact .inl ⟨⟨_, hstep.trans (clockEdge_of_held e _ hr hh)⟩, fun h => Bool.noConfusion h.2⟩
      | false => exact .inr ⟨hstep.trans (clockEdge_of_not_held e _ hr hh), rfl, rfl⟩

/-! ### The obligations -/

/-- Settles O7: the step serves the oldest waiting request, alone or between an edge's acceptance and delivery. -/
theorem stepRunsDecodedInstruction : Obligations.StepRunsDecodedInstruction := by
  refine ⟨fun s w i hedges hold hd => ?_, fun s t e rest w i hedges hr hanswers hheld hold hd hexec => ?_⟩
  · simp only [step_eq_serve s hedges, serve, hold, hd]
  · have hheld' : requestHeld e { s with edges := rest } = true := hheld
    simp only [step_eq_clockEdge s e rest hedges, clockEdge, hr, hheld', answerAtEdge, hanswers, serve, hold, hd, hexec,
      Bool.false_eq_true, if_true, if_false]

theorem decode_of_decodeTableWord (nbits w : Nat) (i : Instr) (h : decodeTableWord nbits w = some i) :
    decode (requestOfTableBits nbits w) = .ok i := by
  unfold decodeTableWord at h
  split at h
  next j hj => rw [hj, Option.some.inj h]
  · cases h

/-- Settles O8: the placed request is the oldest waiting one, and no edge comes before it. -/
theorem placedRequestRunsNext : Obligations.PlacedRequestRunsNext := by
  intro s nbits w i h
  exact stepRunsDecodedInstruction.1 _ _ i rfl (oldestPending_placeInQueue _ _) (decode_of_decodeTableWord nbits w i h)

/-- Settles O9: no edge comes first, and the oldest waiting request gets the response of the rules. -/
theorem stepAnswersAsTheRulesSay : Obligations.StepAnswersAsTheRulesSay := by
  rintro s pre post w ⟨hedges, hq, hpre⟩
  have hold : oldestPending s.inflight = some w := hq ▸ oldestPending_append pre post w hpre
  calc step s = serve s := step_eq_serve s hedges
    _ = .next (respond (answerOf w) s) := serve_of_oldestPending s w hold
    _ = .next (answered s pre w (answerOf w) post) := by rw [respond_eq _ s pre post w hq hpre, answered]

/-- Settles O10: no edge comes first, and the unit has no request to serve. -/
theorem unitIdlesWithoutRequest : Obligations.UnitIdlesWithoutRequest := by
  intro s hedges hall
  rw [step_eq_serve s hedges, serve_of_none s ((oldestPending_eq_none_iff _).mpr hall)]

/-- Settles O11: every operation responds, and with every entry answered a response changes nothing. -/
theorem execWithoutRequestChangesNothing : Obligations.ExecWithoutRequestChangesNothing := by
  intro i s hall
  obtain ⟨x, hx⟩ := exec_responds i
  rw [hx, respond_of_answered _ s ((oldestPending_eq_none_iff _).mpr hall)]

/-- Settles O12: of the two things a step can do, each excludes the other. -/
theorem stepStopsOnlyOnWithdrawnRequest : Obligations.StepStopsOnlyOnWithdrawnRequest := by
  intro s
  refine ⟨(fun f => nomatch f), fun r => ?refuses, ?completes⟩
  all_goals rcases step_cases s with ⟨⟨t, ht⟩, hs⟩ | ⟨hrefused, hs⟩
  case refuses.inl => exact iff_of_false (by simp [ht]) fun h => hs h.2
  case refuses.inr => exact ⟨fun h => ⟨by simpa [hrefused] using h.symm, hs⟩, fun h => by rw [hrefused, h.1]⟩
  case completes.inl => exact iff_of_true ⟨t, ht⟩ (by simp [ht])
  case completes.inr => exact iff_of_false (by simp [hrefused]) fun h => h _ hrefused

/-- Settles O16: after the error response the next request is the oldest waiting one, and the step answers it. -/
theorem exceptionLeavesLaterRequests : Obligations.ExceptionLeavesLaterRequests := by
  intro s pre post bad w t hwaits hd
  refine ⟨_, step_of_decode_eq_error s pre _ bad t hwaits hd, ?_⟩
  obtain ⟨hedges, -, hpre⟩ := hwaits
  have hnext : Waits (answered s pre bad (trapResponse t) ({ req := w, rsp := none } :: post))
      (pre ++ [{ req := bad, rsp := some (trapResponse t) }]) w post := by
    refine ⟨hedges, by simp [answered], fun e he => ?_⟩
    rcases List.mem_append.mp he with he | he
    · exact hpre e he
    · rw [List.mem_singleton.mp he]; rfl
  rw [stepAnswersAsTheRulesSay _ _ _ _ hnext]
  simp [answered]

end Sys2Proof.Machine
end

section
/-!
PROOF. The ports, reset and the invariant (R22 to R25, R32, R91, R92). One edge with `rst = 0` is an acceptance, the
unit's work and a delivery; what each does to each field of the state is said once, and a step keeps the invariant
because each of the three does.
-/

namespace Sys2Proof.Machine

/-! ### The request channel, field by field -/

/-- The requests accepted at an edge: the one presented, if the unit is ready (R23 item 1). -/
def acceptedAt (e : Edge) (s : State) : List ReqWord :=
  if e.reqValid && reqReady e s then [portRequest e] else []

section
variable (e : Edge) (s : State)

theorem acceptedAt_of_ready (hv : e.reqValid = true) (hr : reqReady e s = true) : acceptedAt e s = [portRequest e] := by
  rw [acceptedAt, hv, hr]; rfl

theorem acceptedAt_of_not_ready (hr : reqReady e s = false) : acceptedAt e s = [] := by
  rw [acceptedAt, hr, Bool.and_false]; rfl

theorem acceptedAt_of_not_valid (hv : e.reqValid = false) : acceptedAt e s = [] := by
  rw [acceptedAt, hv]; rfl

/-- The request channel, with its three cases in one. -/
theorem acceptAtEdge_eq_acceptedAt : acceptAtEdge e s =
    { s with
      inflight := s.inflight ++ (acceptedAt e s).map fun w => { req := w, rsp := none }
      held := if e.reqValid && !reqReady e s then some (portRequest e) else none
      accepted := s.accepted ++ acceptedAt e s } := by
  rcases acceptAtEdge_eq e s with ⟨hv, hr, h⟩ | ⟨hv, hr, h⟩ | ⟨hv, h⟩
  · rw [h, acceptedAt_of_ready e s hv hr, hv, hr]; rfl
  · simp [h, acceptedAt_of_not_ready e s hr, hv, hr]
  · simp [h, acceptedAt_of_not_valid e s hv, hv]

theorem acceptAtEdge_inflight :
    (acceptAtEdge e s).inflight = s.inflight ++ (acceptedAt e s).map fun w => { req := w, rsp := none } := by
  rw [acceptAtEdge_eq_acceptedAt]

end

/-! ### The response channel, field by field -/

/-- The responses delivered from a queue at an edge: the head's, if it is valid and the host ready (R23 item 4). -/
def deliveredAt (e : Edge) (q : List Entry) : List Response :=
  if e.rspReady then (headResponse q).toList else []

/-- The response channel, with its cases in one. -/
theorem deliverAtEdge_eq_deliveredAt (e : Edge) (s : State) : deliverAtEdge e s =
    { s with
      inflight := s.inflight.drop (deliveredAt e s.inflight).length
      delivered := s.delivered ++ deliveredAt e s.inflight } := by
  unfold deliverAtEdge deliveredAt
  split
  · unfold deliver
    split
    next h => simp [h]
    next r h => simp [h]
  · simp

/-! ### The queue under the unit's work -/

/-- The unit's work answers the oldest waiting request, or nothing where none waits. -/
theorem answerNext_cases (q : List Entry) :
    (∀ e ∈ q, e.rsp.isSome) ∧ answerNext q = q ∨
      ∃ pre w post, (∀ e ∈ pre, e.rsp.isSome) ∧ q = pre ++ { req := w, rsp := none } :: post ∧
        answerNext q = pre ++ { req := w, rsp := some (answerOf w) } :: post := by
  unfold answerNext
  cases hold : oldestPending q with
  | none => exact .inl ⟨(oldestPending_eq_none_iff q).mp hold, rfl⟩
  | some w =>
    obtain ⟨pre, post, hq, hpre⟩ := oldestPending_eq_some q w hold
    exact .inr ⟨pre, w, post, hpre, hq, hq ▸ answerOldest_append _ pre post w hpre⟩

/-- A response that is valid stays valid and the same while the unit works. -/
theorem headResponse_answerNext (q : List Entry) (r : Response) (h : headResponse q = some r) :
    headResponse (answerNext q) = some r := by
  cases q with
  | nil => cases h
  | cons e q => rwa [answerNext_cons_of_answered e q r h]

@[simp] theorem workAtEdge_map_req (e : Edge) (q : List Entry) :
    (workAtEdge e q).map Entry.req = q.map Entry.req := by
  unfold workAtEdge
  split
  · exact answerNext_map_req q
  · rfl

theorem headResponse_workAtEdge (e : Edge) (q : List Entry) (r : Response) (h : headResponse q = some r) :
    headResponse (workAtEdge e q) = some r := by
  unfold workAtEdge
  split
  · exact headResponse_answerNext q r h
  · exact h

theorem headResponse_append (p q : List Entry) (r : Response) (h : headResponse p = some r) :
    headResponse (p ++ q) = some r := by
  cases p with
  | nil => cases h
  | cons e p => exact h

/-! ### A whole edge with `rst = 0` -/

/-- The queue at an edge, once the request channel and the unit have done their part and before any delivery. -/
def queueAtEdge (e : Edge) (s : State) : List Entry :=
  workAtEdge e (s.inflight ++ (acceptedAt e s).map fun w => { req := w, rsp := none })

theorem queueAtEdge_map_req (e : Edge) (s : State) :
    (queueAtEdge e s).map Entry.req = s.inflight.map Entry.req ++ acceptedAt e s := by
  simp [queueAtEdge, Function.comp_def]

theorem headResponse_queueAtEdge (e : Edge) (s : State) (r : Response) (h : headResponse s.inflight = some r) :
    headResponse (queueAtEdge e s) = some r :=
  headResponse_workAtEdge e _ r (headResponse_append _ _ r h)

/-- Everything an edge with `rst = 0` does to each field. -/
theorem afterEdge_eq (e : Edge) (s : State) : afterEdge e s =
    { inflight := (queueAtEdge e s).drop (deliveredAt e (queueAtEdge e s)).length
      held := if e.reqValid && !reqReady e s then some (portRequest e) else none
      edges := s.edges
      accepted := s.accepted ++ acceptedAt e s
      delivered := s.delivered ++ deliveredAt e (queueAtEdge e s) } := by
  rw [afterEdge, deliverAtEdge_eq_deliveredAt, acceptAtEdge_eq_acceptedAt]
  rfl

/-- An edge with `rst = 0` that answers a next state finds the host's request held. -/
theorem step_edge_next (s t : State) (e : Edge) (rest : List Edge) (hedges : s.edges = e :: rest) (hr : e.rst = false)
    (h : step s = .next t) : requestHeld e s = true ∧ t = afterEdge e { s with edges := rest } := by
  rw [step_eq_clockEdge s e rest hedges] at h
  have hsame : requestHeld e { s with edges := rest } = requestHeld e s := rfl
  cases hh : requestHeld e s with
  | false => rw [clockEdge_of_not_held e _ hr (hsame.trans hh)] at h; cases h
  | true => rw [clockEdge_of_held e _ hr (hsame.trans hh)] at h; exact ⟨rfl, (Host.Outcome.next.inj h).symm⟩

theorem portsAt_of_rst (e : Edge) (s : State) (h : e.rst = true) :
    portsAt e s = { reqReady := false, rsp := none } := by
  rw [portsAt, if_pos h]

theorem portsAt_of_not_rst (e : Edge) (s : State) (h : e.rst = false) :
    portsAt e s = { reqReady := reqReady e s, rsp := headResponse (queueAtEdge e s) } := by
  simp only [portsAt, h, answerAtEdge_eq_workAtEdge, acceptAtEdge_inflight, queueAtEdge, Bool.false_eq_true, if_false]

/-! ### What a step keeps -/

theorem UnitInv.of_fields {s t : State} (h : UnitInv s) (hq : t.inflight = s.inflight)
    (ha : t.accepted = s.accepted) (hd : t.delivered = s.delivered) : UnitInv t where
  room := hq ▸ h.room
  ordered := hq ▸ h.ordered
  honest := hq ▸ h.honest
  pending := by rw [ha, hd, hq]; exact h.pending
  returned := by rw [ha, hd]; exact h.returned

theorem UnitInv.delivered_length_le {s : State} (h : UnitInv s) : s.delivered.length ≤ s.accepted.length := by
  have hlength := congrArg List.length h.returned
  rw [List.length_map, List.length_take] at hlength
  omega

theorem UnitInv.accepted_length {s : State} (h : UnitInv s) :
    s.accepted.length = s.delivered.length + s.inflight.length := by
  have hlength := congrArg List.length h.pending
  have hle := h.delivered_length_le
  rw [List.length_drop, List.length_map] at hlength
  omega

/-- Acceptance keeps the invariant where there is room (R23 item 1, R24). -/
theorem UnitInv.issue {s : State} (h : UnitInv s) (w : ReqWord) (hroom : s.inflight.length < Config.maxInflight) :
    UnitInv (issue w s) where
  room := by simpa using hroom
  ordered := by
    refine List.pairwise_append.mpr ⟨h.ordered, List.pairwise_singleton _ _, fun older _ newer hnewer => ?_⟩
    simp [List.mem_singleton.mp hnewer]
  honest e he := by
    rcases List.mem_append.mp he with he | he
    · exact h.honest e he
    · simp [List.mem_singleton.mp he]
  pending := by
    rw [issue_accepted, issue_delivered, issue_inflight, List.drop_append_of_le_length h.delivered_length_le, h.pending,
      List.map_append, List.map_singleton]
  returned := by
    rw [issue_accepted, issue_delivered, List.take_append_of_le_length h.delivered_length_le]
    exact h.returned

theorem UnitInv.acceptAtEdge {s : State} (h : UnitInv s) (e : Edge) : UnitInv (acceptAtEdge e s) := by
  rcases acceptAtEdge_eq e s with ⟨-, hr, heq⟩ | ⟨-, -, heq⟩ | ⟨-, heq⟩
  · obtain ⟨-, -, hroom⟩ := reqReady_room e s hr
    exact heq ▸ (h.issue _ hroom).of_fields rfl rfl rfl
  all_goals exact heq ▸ h.of_fields rfl rfl rfl

theorem answeredInOrder_answerNext (q : List Entry) (h : answeredInOrder q) : answeredInOrder (answerNext q) := by
  rcases answerNext_cases q with ⟨-, heq⟩ | ⟨pre, w, post, hpre, hq, heq⟩
  · rwa [heq]
  · rw [hq] at h
    rw [heq]
    obtain ⟨hbefore, hbehind, -⟩ := List.pairwise_append.mp h
    obtain ⟨-, hbehind⟩ := List.pairwise_cons.mp hbehind
    exact List.pairwise_append.mpr ⟨hbefore, List.pairwise_cons.mpr ⟨fun _ _ _ => rfl, hbehind⟩,
      fun older holder _ _ _ => hpre older holder⟩

theorem honest_answerNext (q : List Entry) (h : ∀ e ∈ q, ∀ r, e.rsp = some r → r = answerOf e.req) :
    ∀ e ∈ answerNext q, ∀ r, e.rsp = some r → r = answerOf e.req := by
  rcases answerNext_cases q with ⟨-, heq⟩ | ⟨pre, w, post, -, hq, heq⟩
  · rwa [heq]
  · rw [hq, List.forall_mem_append, List.forall_mem_cons] at h
    rw [heq, List.forall_mem_append, List.forall_mem_cons]
    obtain ⟨hbefore, -, hbehind⟩ := h
    exact ⟨hbefore, fun r hr => (Option.some.inj hr).symm, hbehind⟩

/-- The unit's work keeps the invariant: it answers the oldest waiting request, as the rules say. -/
theorem UnitInv.answerNext {s : State} (h : UnitInv s) : UnitInv { s with inflight := answerNext s.inflight } where
  room := (answerNext_length s.inflight).trans_le h.room
  ordered := answeredInOrder_answerNext _ h.ordered
  honest := honest_answerNext _ h.honest
  pending := h.pending.trans (answerNext_map_req s.inflight).symm
  returned := h.returned

theorem UnitInv.workAtEdge {s : State} (h : UnitInv s) (e : Edge) :
    UnitInv { s with inflight := workAtEdge e s.inflight } := by
  unfold Machine.workAtEdge
  split
  · exact h.answerNext
  · exact h

/-- Delivery keeps the invariant: the head's request is the next one to return (R23 item 3). -/
theorem UnitInv.deliver {s : State} (h : UnitInv s) : UnitInv (deliver s) := by
  rcases deliver_eq s with ⟨heq, -⟩ | ⟨e, q, r, hq, hr, heq⟩
  · rw [heq]; exact h
  have hpending : s.accepted.drop s.delivered.length = e.req :: q.map Entry.req := by rw [h.pending, hq, List.map_cons]
  have hnext : s.accepted[s.delivered.length]? = some e.req := by rw [← List.head?_drop, hpending, List.head?_cons]
  have hordered : answeredInOrder (e :: q) := hq ▸ h.ordered
  rw [heq]
  exact {
    room := by have hroom := h.room; rw [hq, List.length_cons] at hroom; exact Nat.le_of_succ_le hroom
    ordered := (List.pairwise_cons.mp hordered).2
    honest := fun e' he' => h.honest e' (hq ▸ List.mem_cons_of_mem e he')
    pending := by
      rw [List.length_append, List.length_singleton, ← List.tail_drop, hpending, List.tail_cons]
    returned := by
      have hreturned := h.honest e (hq ▸ List.mem_cons_self) r hr
      rw [List.length_append, List.length_singleton, List.take_add_one, hnext, List.map_append, ← h.returned, hreturned]
      rfl }

theorem UnitInv.deliverAtEdge {s : State} (h : UnitInv s) (e : Edge) : UnitInv (deliverAtEdge e s) := by
  unfold Machine.deliverAtEdge
  split
  · exact h.deliver
  · exact h

theorem UnitInv.afterEdge {s : State} (h : UnitInv s) (e : Edge) : UnitInv (afterEdge e s) :=
  ((h.acceptAtEdge e).workAtEdge e).deliverAtEdge e

theorem unitInv_of_empty {s : State} (hq : s.inflight = []) (ha : s.accepted = []) (hd : s.delivered = []) :
    UnitInv s where
  room := by rw [hq]; exact Nat.zero_le _
  ordered := by rw [hq]; exact List.Pairwise.nil
  honest := by rw [hq]; exact fun e he => absurd he List.not_mem_nil
  pending := by rw [ha, hd, hq]; rfl
  returned := by rw [ha, hd]; rfl

/-- Every edge and every step of the unit keeps the invariant. -/
theorem UnitInv.step {s t : State} (h : UnitInv s) (hstep : step s = .next t) : UnitInv t := by
  cases hedges : s.edges with
  | nil =>
    rw [step_eq_answerNext s hedges] at hstep
    exact Host.Outcome.next.inj hstep ▸ h.answerNext
  | cons e rest =>
    cases hr : e.rst with
    | true =>
      rw [step_eq_clockEdge s e rest hedges, clockEdge_of_rst e _ hr] at hstep
      exact Host.Outcome.next.inj hstep ▸ unitInv_of_empty rfl rfl rfl
    | false =>
      obtain ⟨-, rfl⟩ := step_edge_next s t e rest hedges hr hstep
      exact UnitInv.afterEdge (s := { s with edges := rest }) (h.of_fields rfl rfl rfl) e

/-- The invariant of every state that a run reaches. -/
theorem UnitInv.run (n : Nat) {s t : State} (h : UnitInv s) (hrun : Sys2Proof.core.run n s = .next t) : UnitInv t := by
  induction n generalizing s with
  | zero => exact Host.Outcome.next.inj hrun ▸ h
  | succ n ih =>
    obtain ⟨u, hstep, hrest⟩ := core_run_succ_next n s t hrun
    exact ih (h.step hstep) hrest

/-! ### Completed responses -/

/-- The responses of a queue in their order: those computed, and those the rules will give. -/
def settledResponses (q : List Entry) : List Response :=
  q.map fun e => e.rsp.getD (answerOf e.req)

/-- The queue with every response in its place. -/
def settleQueue (q : List Entry) : List Entry :=
  q.map fun e => { e with rsp := some (e.rsp.getD (answerOf e.req)) }

theorem settledResponses_settleQueue (q : List Entry) : settledResponses (settleQueue q) = settledResponses q := by
  rw [settledResponses, settleQueue, List.map_map]
  rfl

/-- The unit's work computes a response that was due and no other. -/
theorem settleQueue_answerNext (q : List Entry) : settleQueue (answerNext q) = settleQueue q := by
  rcases answerNext_cases q with ⟨-, heq⟩ | ⟨pre, w, post, -, hq, heq⟩
  · rw [heq]
  · rw [heq, hq]
    simp [settleQueue]

@[simp] theorem settledResponses_answerNext (q : List Entry) :
    settledResponses (answerNext q) = settledResponses q := by
  rw [← settledResponses_settleQueue, settleQueue_answerNext, settledResponses_settleQueue]

theorem pendingCount_eq_zero_iff (q : List Entry) : pendingCount q = 0 ↔ ∀ e ∈ q, e.rsp.isSome := by
  simp [pendingCount, Option.ne_none_iff_isSome]

/-- Where a request waits, the unit's work leaves one fewer. -/
theorem pendingCount_answerNext (q : List Entry) : pendingCount (answerNext q) = pendingCount q - 1 := by
  rcases answerNext_cases q with ⟨hall, heq⟩ | ⟨pre, w, post, -, hq, heq⟩
  · rw [heq, (pendingCount_eq_zero_iff q).mpr hall]
  · rw [heq, hq]
    simp [pendingCount]

/-- A queue in which nothing waits has every response in its place. -/
theorem settleQueue_of_pendingCount_eq_zero (q : List Entry) (h : pendingCount q = 0) : settleQueue q = q := by
  refine (List.map_congr_left fun e he => ?_).trans (List.map_id q)
  obtain ⟨r, hr⟩ := Option.isSome_iff_exists.mp ((pendingCount_eq_zero_iff q).mp h e he)
  rw [hr, Option.getD_some, ← hr]
  rfl

/-! ### Quiet edges -/

theorem acceptedAt_quietEdge (s : State) : acceptedAt quietEdge s = [] :=
  acceptedAt_of_not_valid quietEdge s rfl

/-- The unit's work gives the head its response. -/
theorem answerNext_cons (e : Entry) (q : List Entry) :
    ∃ e' q', answerNext (e :: q) = e' :: q' ∧ e'.rsp = some (e.rsp.getD (answerOf e.req)) ∧
      settledResponses q' = settledResponses q ∧ q'.length = q.length := by
  cases he : e.rsp with
  | none => exact ⟨_, q, answerNext_cons_of_pending e q he, rfl, rfl, rfl⟩
  | some r =>
    exact ⟨e, answerNext q, answerNext_cons_of_answered e q r he, he, settledResponses_answerNext q,
      answerNext_length q⟩

/-- A quiet edge answers the head and delivers its response. -/
theorem step_quietEdge (s : State) (rest : List Edge) (e : Entry) (q : List Entry)
    (hedges : s.edges = quietEdge :: rest) (hheld : s.held = none) (hq : s.inflight = e :: q) :
    ∃ q', step s = .next { s with
        inflight := q', edges := rest, delivered := s.delivered ++ [e.rsp.getD (answerOf e.req)] } ∧
      settledResponses q' = settledResponses q ∧ q'.length = q.length := by
  obtain ⟨e', q', hnext, hrsp, hsettled, hlength⟩ := answerNext_cons e q
  have hqueue : queueAtEdge quietEdge { s with edges := rest } = e' :: q' := by
    rw [queueAtEdge, acceptedAt_quietEdge, List.map_nil, List.append_nil]
    exact (congrArg answerNext hq).trans hnext
  have hgiven : deliveredAt quietEdge (e' :: q') = [e.rsp.getD (answerOf e.req)] := congrArg Option.toList hrsp
  refine ⟨q', ?_, hsettled, hlength⟩
  have hpresented : requestHeld quietEdge { s with edges := rest } = true := by simp only [requestHeld, hheld]
  rw [step_eq_clockEdge s _ _ hedges, clockEdge_of_held _ _ rfl hpresented, afterEdge_eq, hqueue, hgiven,
    acceptedAt_quietEdge, List.append_nil, hheld]
  rfl

/-! ### The obligations -/

/-- Settles O46: a reset edge clears the queue, the record and the held request, and drives both signals to 0. -/
theorem resetEdgeEmptiesTheQueue : Obligations.ResetEdgeEmptiesTheQueue := by
  intro s e rest hedges hr
  refine ⟨?_, portsAt_of_rst e s hr⟩
  rw [step_eq_clockEdge s e rest hedges, clockEdge_of_rst e _ hr]
  rfl

/-- Settles O47: an edge with `rst = 0` that answers a next state is `afterEdge`, whose fields name what the ports
show. -/
theorem edgeFollowsTheHandshake : Obligations.EdgeFollowsTheHandshake := by
  intro s t e rest hedges hr hstep
  obtain ⟨-, rfl⟩ := step_edge_next s t e rest hedges hr hstep
  rw [portsAt_of_not_rst e s hr, afterEdge_eq]
  refine ⟨rfl, rfl, ?_, rfl, rfl⟩
  rw [List.map_drop, queueAtEdge_map_req]
  rfl

/-- Settles O48: with no work and no delivery, an edge is its request channel alone. -/
theorem presentedRequestJoinsOrIsHeld : Obligations.PresentedRequestJoinsOrIsHeld := by
  intro s e rest hedges hr hvalid hnotTaken hidle hheld
  have hpresented : requestHeld e { s with edges := rest } = true := by
    cases hh : requestHeld e { s with edges := rest } with
    | true => rfl
    | false =>
      obtain ⟨w, hw, hchanged⟩ := (requestHeld_eq_false_iff _ _).mp hh
      exact absurd ⟨hvalid, hheld w hw⟩ hchanged
  have hstep : step s = .next (acceptAtEdge e { s with edges := rest }) := by
    rw [step_eq_clockEdge s e rest hedges, clockEdge_of_held e _ hr hpresented]
    simp [afterEdge, workAtEdge, deliverAtEdge, hidle, hnotTaken]
  have hready : reqReady e { s with edges := rest } = true ↔
      e.unitReady = true ∧ s.inflight.length < Config.maxInflight := by
    simp [reqReady, hasRoom, hr]
  rw [hstep, ← hready, acceptAtEdge, if_pos hvalid]
  exact ⟨fun h => by rw [if_pos h]; rfl, fun h => by rw [if_neg h]; rfl⟩

/-- Settles O49: the signal is that of `reqReady`, which asks for room. -/
theorem readyOnlyWithRoom : Obligations.ReadyOnlyWithRoom := by
  intro e s h
  cases hr : e.rst with
  | true => rw [portsAt_of_rst e s hr] at h; cases h
  | false =>
    rw [portsAt_of_not_rst e s hr] at h
    obtain ⟨-, -, hroom⟩ := reqReady_room e s h
    exact ⟨rfl, hroom⟩

/-- Settles O50: a head response that is not delivered stays at the head of the queue, through any later work. -/
theorem responseIsHeldUntilDelivered : Obligations.ResponseIsHeldUntilDelivered := by
  intro s t e e' rest r hedges hr hnotReady hvalid hstep hr'
  obtain ⟨-, rfl⟩ := step_edge_next s t e rest hedges hr hstep
  rw [portsAt_of_not_rst e s hr] at hvalid
  rw [portsAt_of_not_rst e' _ hr']
  have hkept : (afterEdge e { s with edges := rest }).inflight = queueAtEdge e s := by
    rw [afterEdge_eq, deliveredAt, hnotReady]
    rfl
  exact headResponse_queueAtEdge e' _ r (hkept ▸ hvalid)

/-- Settles O51: nothing is in flight and the record is empty. -/
theorem resetSatisfiesTheInvariant : Obligations.ResetSatisfiesTheInvariant :=
  ⟨unitInv_of_empty rfl rfl rfl, rfl⟩

/-- Settles O52: acceptance, the unit's work, delivery and reset each keep the invariant. -/
theorem stepKeepsTheInvariant : Obligations.StepKeepsTheInvariant :=
  fun _ _ h hstep => h.step hstep

/-- A run after reset, on any schedule of edges, keeps the invariant. -/
theorem unitInv_of_run_reset (n : Nat) (es : List Edge) (t : State)
    (h : Sys2Proof.core.run n { State.reset with edges := es } = .next t) : UnitInv t :=
  UnitInv.run n (s := { State.reset with edges := es }) (unitInv_of_empty rfl rfl rfl) h

/-- With nothing in flight, the responses delivered answer all the requests accepted. -/
theorem UnitInv.delivered_of_inflight_nil {s : State} (h : UnitInv s) (hq : s.inflight = []) :
    s.delivered = s.accepted.map answerOf := by
  have hlength := h.accepted_length
  rw [hq, List.length_nil, Nat.add_zero] at hlength
  exact h.returned.trans (by rw [← hlength, List.take_length])

/-- Settles O53: the run keeps the invariant, which says so of every state. -/
theorem everyScheduleReturnsInOrder : Obligations.EveryScheduleReturnsInOrder := by
  intro n es t hrun
  have h := unitInv_of_run_reset n es t hrun
  exact ⟨h.returned, h.accepted_length, h.room, h.delivered_of_inflight_nil⟩

/-- Settles O54: each run's responses are those the rules give the same requests. -/
theorem timingDoesNotChangeResponses : Obligations.TimingDoesNotChangeResponses := by
  intro n m es fs t u ht hu hsame htq huq
  rw [(unitInv_of_run_reset n es t ht).delivered_of_inflight_nil htq,
    (unitInv_of_run_reset m fs u hu).delivered_of_inflight_nil huq, hsame]

/-- As many steps as requests wait put every response in its place. -/
theorem run_pendingCount (n : Nat) (s : State) (hedges : s.edges = []) (hn : pendingCount s.inflight = n) :
    Sys2Proof.core.run n s = .next { s with inflight := settleQueue s.inflight } := by
  induction n generalizing s with
  | zero => rw [settleQueue_of_pendingCount_eq_zero _ hn]; rfl
  | succ n ih =>
    have hcount : pendingCount (answerNext s.inflight) = n := by rw [pendingCount_answerNext, hn, Nat.add_sub_cancel]
    rw [core_run_succ n s _ (step_eq_answerNext s hedges),
      ih { s with inflight := answerNext s.inflight } hedges hcount]
    simp only [settleQueue_answerNext]

/-- Settles O55: each step answers one waiting request and keeps the responses that are due. -/
theorem everyPendingRequestIsAnswered : Obligations.EveryPendingRequestIsAnswered :=
  fun s hedges => run_pendingCount _ s hedges rfl

/-- As many quiet edges as entries deliver the responses that are due. -/
theorem run_quietEdges (n : Nat) (s : State) (rest : List Edge) (hheld : s.held = none) (hn : s.inflight.length = n)
    (hedges : s.edges = List.replicate n quietEdge ++ rest) :
    Sys2Proof.core.run n s = .next { s with
      inflight := [], edges := rest, delivered := s.delivered ++ settledResponses s.inflight } := by
  induction n generalizing s with
  | zero =>
    obtain ⟨inflight, held, edges, accepted, delivered⟩ := s
    obtain rfl : inflight = [] := List.length_eq_zero_iff.mp hn
    obtain rfl : edges = rest := hedges
    simp [settledResponses, Host.Core.run]
  | succ n ih =>
    obtain ⟨e, q, hq⟩ := List.exists_cons_of_length_eq_add_one hn
    obtain ⟨q', hstep, hsettled, hlength⟩ := step_quietEdge s _ e q hedges hheld hq
    rw [hq, List.length_cons, Nat.add_right_cancel_iff] at hn
    have hsettled : settledResponses s.inflight = e.rsp.getD (answerOf e.req) :: settledResponses q' := by
      rw [hq, hsettled]
      rfl
    refine (core_run_succ n s _ hstep).trans ((ih _ ?held ?length rfl).trans ?_)
    case held => exact hheld
    case length => exact hlength.trans hn
    rw [hsettled, List.append_assoc, List.singleton_append]

/-- Settles O56: each quiet edge answers the head if need be and delivers its response. -/
theorem quietEdgesDrainTheQueue : Obligations.QuietEdgesDrainTheQueue :=
  fun s rest hheld hedges => run_quietEdges _ s rest hheld rfl hedges

end Sys2Proof.Machine
end

section
/-!
PROOF. Scripts (R45, R46, R97). A transaction of the sequential host gets the response the rules give its request, and
so does every request of a run at the ports that keeps the invariant; so the two ends are found by the same recursion
over the lines.
-/

namespace Sys2Proof.Machine

/-! ### One line -/

/-- A transaction on an idle unit gets the response of the rules, and adds its request and response to the record. -/
theorem transact_idle (w : ReqWord) (s : State) (hq : s.inflight = []) (hedges : s.edges = []) :
    transact w s = some (answerOf w,
      { s with accepted := s.accepted ++ [w], delivered := s.delivered ++ [answerOf w] }) := by
  have hstep := step_eq_answerNext (issue w s) hedges
  rw [issue_inflight, hq, List.nil_append, answerNext_cons_of_pending _ _ rfl] at hstep
  simp only [transact, hstep, headResponse, deliver, Option.map_some, List.tail_cons, issue_delivered, issue_accepted,
    issue_held, issue_edges, hq]

/-- Every name of `known` has a value among `names`. -/
def NamesCover (known : List Nat) (names : Names) : Prop :=
  ∀ k ∈ known, ∃ v, names.lookup k = some v

theorem NamesCover.assignName {known : List Nat} {names : Names} (h : NamesCover known names) (dest : Option Nat)
    (r : Word) : NamesCover (dest.toList ++ known) (assignName dest r names) := by
  cases dest with
  | none => exact h
  | some d =>
    intro k hk
    rw [Machine.assignName, List.lookup_cons]
    cases hkd : k == d with
    | true => exact ⟨r, rfl⟩
    | false =>
      rcases List.mem_cons.mp hk with rfl | hk
      · rw [beq_self_eq_true] at hkd; cases hkd
      · exact h k hk

theorem NamesCover.operandWord {known : List Nat} {names : Names} (h : NamesCover known names) (x : Operand)
    (hx : x.isValue known = true) : ∃ v, operandWord names x = some v := by
  cases x with
  | hex w => exact ⟨w, rfl⟩
  | cname c => exact ⟨constWord c, rfl⟩
  | temp k => exact h k (List.contains_iff_mem.mp hx)
  | decimal n => cases hx

theorem NamesCover.unaryOperand {known : List Nat} {names : Names} (h : NamesCover known names) (x : Operand)
    (y : Option Operand) (hxy : (x.isValue known && y.isNone) = true) :
    (∃ v, Machine.operandWord names x = some v) ∧ y = none := by
  obtain ⟨hx, hy⟩ := Bool.and_eq_true_iff.mp hxy
  exact ⟨h.operandWord x hx, Option.isNone_iff_eq_none.mp hy⟩

theorem NamesCover.fromIntOperand {known : List Nat} {names : Names} (h : NamesCover known names) (x : Operand)
    (y : Option Operand) (hwf : operandsWellFormed known .fromint x y = true) :
    (∃ v, fromIntWord names x = some v) ∧ y = none := by
  cases x with
  | decimal n =>
    obtain ⟨hn, hy⟩ := Bool.and_eq_true_iff.mp hwf
    exact ⟨⟨_, if_pos hn⟩, Option.isNone_iff_eq_none.mp hy⟩
  | hex w => exact h.unaryOperand (.hex w) y hwf
  | cname c => exact h.unaryOperand (.cname c) y hwf
  | temp k => exact h.unaryOperand (.temp k) y hwf

theorem NamesCover.binaryOperands {known : List Nat} {names : Names} (h : NamesCover known names) (x : Operand)
    (y : Option Operand) (m : Mnemonic) (hm : m = .add ∨ m = .sub ∨ m = .mul)
    (hwf : operandsWellFormed known m x y = true) :
    ∃ z a b, y = some z ∧ Machine.operandWord names x = some a ∧ Machine.operandWord names z = some b := by
  cases y with
  | none => rcases hm with rfl | rfl | rfl <;> cases hwf
  | some z =>
    have hxz : (x.isValue known && z.isValue known) = true := by
      rcases hm with rfl | rfl | rfl <;> exact hwf
    obtain ⟨hx, hz⟩ := Bool.and_eq_true_iff.mp hxz
    obtain ⟨a, ha⟩ := h.operandWord x hx
    obtain ⟨b, hb⟩ := h.operandWord z hz
    exact ⟨z, a, b, rfl, ha, hb⟩

theorem unaryRequest_of_eq_some (op : BitVec 4) (v : Option Word) (a : Word) (h : v = some a) :
    unaryRequest op v none = some (packRequest op a 0) := by
  rw [h, unaryRequest]

theorem binaryRequest_of_eq_some (op : BitVec 4) (names : Names) (x z : Operand) (a b : Word)
    (hx : operandWord names x = some a) (hz : operandWord names z = some b) :
    binaryRequest op names x (some z) = some (packRequest op a b) := by
  simp only [binaryRequest, Option.bind_some, hx, hz]

/-- The line has a request word, and the rules answer it with a result. -/
def AssemblesToResult (names : Names) (l : Line) : Prop :=
  ∃ w r, assembleLine names l = some w ∧ answerOf w = .ok r

theorem answerOf_constSelector (c : ConstName) : answerOf (packRequest 1 (constSelector c) 0) = .ok (constWord c) := by
  rw [answerOf_const]
  cases c <;> rfl

/-- A well-formed operation line has a request word whose operation is defined (R45, R46, R77). -/
theorem NamesCover.assemblesToResult {known : List Nat} {names : Names} (h : NamesCover known names)
    (dest : Option Nat) (m : Mnemonic) (x : Operand) (y : Option Operand)
    (hwf : operandsWellFormed known m x y = true) : AssemblesToResult names (.op dest m x y) := by
  cases m with
  | raw =>
    obtain ⟨⟨a, ha⟩, rfl⟩ := h.unaryOperand x y hwf
    exact ⟨_, _, unaryRequest_of_eq_some 0 _ a ha, answerOf_raw a 0⟩
  | const =>
    cases x with
    | cname c =>
      obtain rfl := Option.isNone_iff_eq_none.mp hwf
      exact ⟨_, _, unaryRequest_of_eq_some 1 _ _ rfl, answerOf_constSelector c⟩
    | hex _ | temp _ | decimal _ => cases hwf
  | fromint =>
    obtain ⟨⟨a, ha⟩, rfl⟩ := h.fromIntOperand x y hwf
    exact ⟨_, _, unaryRequest_of_eq_some 2 _ a ha, answerOf_fromint a 0⟩
  | toint =>
    obtain ⟨⟨a, ha⟩, rfl⟩ := h.unaryOperand x y hwf
    exact ⟨_, _, unaryRequest_of_eq_some 3 _ a ha, answerOf_toint a 0⟩
  | todbl =>
    obtain ⟨⟨a, ha⟩, rfl⟩ := h.unaryOperand x y hwf
    exact ⟨_, _, unaryRequest_of_eq_some 4 _ a ha, answerOf_todbl a 0⟩
  | neg =>
    obtain ⟨⟨b, hb⟩, rfl⟩ := h.unaryOperand x y hwf
    exact ⟨_, _, assembleLine_neg names dest x b hb, answerOf_sub 0 b⟩
  | add =>
    obtain ⟨z, a, b, rfl, ha, hb⟩ := h.binaryOperands x y .add (.inl rfl) hwf
    exact ⟨_, _, binaryRequest_of_eq_some 5 names x z a b ha hb, answerOf_add a b⟩
  | sub =>
    obtain ⟨z, a, b, rfl, ha, hb⟩ := h.binaryOperands x y .sub (.inr (.inl rfl)) hwf
    exact ⟨_, _, binaryRequest_of_eq_some 6 names x z a b ha hb, answerOf_sub a b⟩
  | mul =>
    obtain ⟨z, a, b, rfl, ha, hb⟩ := h.binaryOperands x y .mul (.inr (.inr rfl)) hwf
    exact ⟨_, _, binaryRequest_of_eq_some 7 names x z a b ha hb, answerOf_mul a b⟩

/-! ### The sequential run -/

/-- The next state of the sequential host after a line whose request is `w`. -/
def afterRequest (w : ReqWord) (s : State) : State :=
  { s with accepted := s.accepted ++ [w], delivered := s.delivered ++ [answerOf w] }

/-- A line answered with a result: the run goes on with the rest. -/
theorem runFrom_cons_of_result (n : Nat) (names : Names) (l : Line) (rest : List Line) (s : State) (w : ReqWord)
    (r : Word) (hq : s.inflight = []) (hedges : s.edges = []) (hl : assembleLine names l = some w)
    (hw : answerOf w = .ok r) :
    runFrom n names (l :: rest) s = runFrom (n + 1) (assignName l.dest r names) rest (afterRequest w s) := by
  rw [runFrom]
  simp only [hl, transact_idle w s hq hedges, hw, afterRequest]

/-- A line answered with an error response ends the run there (R97). -/
theorem runFrom_cons_of_error (n : Nat) (names : Names) (l : Line) (rest : List Line) (s : State) (w : ReqWord)
    (hq : s.inflight = []) (hedges : s.edges = []) (hl : assembleLine names l = some w)
    (hw : ∀ r, answerOf w ≠ .ok r) :
    runFrom n names (l :: rest) s = .faulted n (answerOf w).status := by
  rw [runFrom]
  simp only [hl, transact_idle w s hq hedges]
  cases ha : answerOf w with
  | ok r => exact absurd ha (hw r)
  | illegalOp => rfl
  | illegalConst => rfl

/-- Well-formed operation lines run to their end, with one response a line. -/
theorem runFrom_over_of_wellFormed (ls : List Line) (hops : ∀ l ∈ ls, ∀ d w, l ≠ .bits d w) (n : Nat) (known : List Nat)
    (names : Names) (s : State) (hnames : NamesCover known names) (hwf : scriptWellFormed known ls = true)
    (hq : s.inflight = []) (hedges : s.edges = []) :
    ∃ names' rs, runFrom n names ls s = .over names' (s.delivered ++ rs) ∧ rs.length = ls.length := by
  induction ls generalizing n known names s with
  | nil => exact ⟨names, [], by rw [runFrom, List.append_nil], rfl⟩
  | cons l rest ih =>
    obtain ⟨hl, hrest⟩ := List.forall_mem_cons.mp hops
    obtain ⟨hline, hscript⟩ := Bool.and_eq_true_iff.mp hwf
    cases l with
    | bits d w => exact absurd rfl (hl d w)
    | op dest m x y =>
      obtain ⟨-, hoperands⟩ := Bool.and_eq_true_iff.mp hline
      obtain ⟨w, r, hw, hr⟩ := hnames.assemblesToResult dest m x y hoperands
      obtain ⟨names', rs, hrun, hlength⟩ :=
        ih hrest (n + 1) _ _ (afterRequest w s) (hnames.assignName dest r) hscript hq hedges
      refine ⟨names', answerOf w :: rs, ?_, congrArg (· + 1) hlength⟩
      rw [runFrom_cons_of_result n names _ rest s w r hq hedges hw hr]
      refine hrun.trans ?_
      rw [afterRequest, List.append_assoc, List.singleton_append]

/-! ### The end of a run at the ports -/

/-- The script is over where nothing is accepted or delivered beyond it. -/
theorem endFrom_nil (n : Nat) (names : Names) (ws : List ReqWord) (rs : List Response) (t : State) (e : RunEnd)
    (h : endFrom n names [] ws rs t = some e) : rs = [] ∧ e = .over names t.delivered := by
  cases ws with
  | cons w ws => cases h
  | nil =>
    cases rs with
    | cons r rs => cases h
    | nil =>
      rw [endFrom] at h
      split at h
      · exact ⟨rfl, (Option.some.inj h).symm⟩
      · cases h

/-- A line of a run that has an end was accepted as its request, and its response ends the run or lets it go on. -/
theorem endFrom_cons (n : Nat) (names : Names) (l : Line) (rest : List Line) (ws : List ReqWord) (rs : List Response)
    (t : State) (e : RunEnd) (h : endFrom n names (l :: rest) ws rs t = some e) :
    ∃ w ws' r rs', ws = w :: ws' ∧ rs = r :: rs' ∧ assembleLine names l = some w ∧
      ((∃ x, r = .ok x ∧ endFrom (n + 1) (assignName l.dest x names) rest ws' rs' t = some e) ∨
        (∀ x, r ≠ .ok x) ∧ e = .faulted n r.status) := by
  cases ws with
  | nil => cases h
  | cons w ws =>
    cases rs with
    | nil => cases h
    | cons r rs =>
      simp only [endFrom] at h
      split at h
      next hl =>
        refine ⟨w, ws, r, rs, rfl, rfl, hl, ?_⟩
        cases r with
        | ok x => exact .inl ⟨x, rfl, h⟩
        | illegalOp => exact .inr ⟨fun x => Response.noConfusion, (Option.some.inj h).symm⟩
        | illegalConst => exact .inr ⟨fun x => Response.noConfusion, (Option.some.inj h).symm⟩
      next => cases h

/-- Where the responses delivered are those the rules give, the end of a run at the ports is the one the sequential host
comes to from the same place in the script. -/
theorem runFrom_of_endFrom (ls : List Line) (n : Nat) (names : Names) (ws : List ReqWord) (rs : List Response)
    (s t : State) (e : RunEnd) (hend : endFrom n names ls ws rs t = some e)
    (hreturned : rs = (ws.take rs.length).map answerOf) (hdelivered : s.delivered ++ rs = t.delivered)
    (hq : s.inflight = []) (hedges : s.edges = []) : runFrom n names ls s = e := by
  induction ls generalizing n names ws rs s with
  | nil =>
    obtain ⟨rfl, rfl⟩ := endFrom_nil n names ws rs t e hend
    rw [runFrom, ← hdelivered, List.append_nil]
  | cons l rest ih =>
    obtain ⟨w, ws, r, rs, rfl, rfl, hl, hcase⟩ := endFrom_cons n names l rest ws rs t e hend
    rw [List.length_cons, List.take_succ_cons, List.map_cons, List.cons.injEq] at hreturned
    obtain ⟨rfl, hreturned⟩ := hreturned
    rcases hcase with ⟨x, hx, hend⟩ | ⟨herror, rfl⟩
    · rw [runFrom_cons_of_result n names l rest s w x hq hedges hl hx]
      refine ih (n + 1) _ ws rs (afterRequest w s) hend hreturned ?_ hq hedges
      rw [afterRequest, List.append_assoc, List.singleton_append, hdelivered]
    · exact runFrom_cons_of_error n names l rest s w hq hedges hl herror

theorem runEnd_eq_some (ls : List Line) (t : State) (e : RunEnd) (h : runEnd ls t = some e) :
    scriptWellFormed [] ls = true ∧ endFrom 1 [] ls t.accepted t.delivered t = some e := by
  unfold runEnd at h
  split at h
  next hwf => exact ⟨hwf, h⟩
  next => cases h

/-! ### The obligations -/

/-- Settles O57: every line's request is a defined operation, so each is answered with a result. -/
theorem wellFormedScriptNeverFaults : Obligations.WellFormedScriptNeverFaults := by
  intro ls hwf hops
  have hnames : NamesCover [] [] := fun k hk => absurd hk List.not_mem_nil
  obtain ⟨names, rs, hrun, hlength⟩ := runFrom_over_of_wellFormed ls hops 1 [] [] State.reset hnames hwf rfl rfl
  exact ⟨names, rs, by rw [runScript, if_pos hwf, hrun, reset_delivered, List.nil_append], hlength⟩

/-- Settles O59: the invariant says that the responses delivered are those of the rules, which the sequential host
gets. -/
theorem everyRunEndsAsTheSequentialRun : Obligations.EveryRunEndsAsTheSequentialRun := by
  intro ls t e hinv hend
  obtain ⟨hwf, hend⟩ := runEnd_eq_some ls t e hend
  rw [runScript, if_pos hwf]
  exact runFrom_of_endFrom ls 1 [] _ _ State.reset t e hend hinv.returned rfl rfl rfl

/-- With nothing accepted, a script with a line has no end state. -/
theorem runEnd_of_accepted_nil (ls : List Line) (t : State) (hls : ls ≠ []) (ht : t.accepted = []) :
    runEnd ls t = none := by
  rw [Option.eq_none_iff_forall_ne_some]
  intro e hend
  obtain ⟨-, hend⟩ := runEnd_eq_some ls t e hend
  obtain ⟨l, rest, rfl⟩ := List.exists_cons_of_ne_nil hls
  obtain ⟨w, ws, -, -, hws, -⟩ := endFrom_cons 1 [] l rest _ _ t e hend
  cases ht.symm.trans hws

/-- Settles O60: a reset edge leaves no accepted request on the record. -/
theorem resetLeavesNoEndState : Obligations.ResetLeavesNoEndState := by
  intro s t e rest ls hedges hr hstep hls
  rw [step_eq_clockEdge s e rest hedges, clockEdge_of_rst e _ hr] at hstep
  have hend : runEnd ls t = none := runEnd_of_accepted_nil ls t hls (Host.Outcome.next.inj hstep ▸ rfl)
  exact ⟨hend, by rw [runIsOver, hend], by rw [runIsFaulted, hend]⟩

end Sys2Proof.Machine
end

section
/-!
PROOF. Liveness (R96). The responses delivered, followed by those due to the requests in flight, only grow at their end,
and by one response for each request accepted. While a request is in flight, fairness of the unit brings a response to
the head of the queue, and the host's readiness brings it out; so what is due is delivered. A held request that is never
accepted would leave an empty queue and a unit that is never ready, against fairness.
-/

namespace Sys2Proof.Machine

/-! ### What is due -/

/-- The responses delivered and those due to the requests in flight, in order. -/
def dueResponses (s : State) : List Response :=
  s.delivered ++ settledResponses s.inflight

theorem settledResponses_workAtEdge (e : Edge) (q : List Entry) :
    settledResponses (workAtEdge e q) = settledResponses q := by
  unfold workAtEdge
  split
  · exact settledResponses_answerNext q
  · rfl

theorem settledResponses_queueAtEdge (e : Edge) (s : State) :
    settledResponses (queueAtEdge e s) = settledResponses s.inflight ++ (acceptedAt e s).map answerOf := by
  rw [queueAtEdge, settledResponses_workAtEdge]
  simp [settledResponses, Function.comp_def]

/-- A delivery takes the response that is due first. -/
theorem deliveredAt_append_settledResponses (e : Edge) (q : List Entry) :
    deliveredAt e q ++ settledResponses (q.drop (deliveredAt e q).length) = settledResponses q := by
  unfold deliveredAt
  split
  · cases q with
    | nil => rfl
    | cons x q => cases hx : x.rsp <;> simp [headResponse, settledResponses, hx]
  · rfl

/-- An edge keeps what is due, and adds the response due to the request it accepts. -/
theorem dueResponses_afterEdge (e : Edge) (s : State) :
    dueResponses (afterEdge e s) = dueResponses s ++ (acceptedAt e s).map answerOf := by
  rw [dueResponses, afterEdge_eq, List.append_assoc, deliveredAt_append_settledResponses,
    settledResponses_queueAtEdge, dueResponses, List.append_assoc]

theorem length_dueResponses (s : State) : (dueResponses s).length = s.delivered.length + s.inflight.length := by
  simp [dueResponses, settledResponses]

/-! ### What one edge does for progress -/

/-- A valid response leaves at an edge at which the host is ready. -/
theorem delivered_length_of_valid (e : Edge) (s : State) (hvalid : (headResponse (queueAtEdge e s)).isSome)
    (hready : e.rspReady = true) : (afterEdge e s).delivered.length = s.delivered.length + 1 := by
  obtain ⟨r, hr⟩ := Option.isSome_iff_exists.mp hvalid
  simp [afterEdge_eq, deliveredAt, hready, hr]

/-- Where nothing is delivered, the queue stays as the unit left it. -/
theorem afterEdge_of_deliveredAt_nil (e : Edge) (s : State) (h : deliveredAt e (queueAtEdge e s) = []) :
    (afterEdge e s).inflight = queueAtEdge e s ∧ (afterEdge e s).delivered = s.delivered := by
  rw [afterEdge_eq, h]
  exact ⟨rfl, List.append_nil _⟩

/-- A valid response is delivered or stays at the head. -/
theorem valid_delivered_or_kept (e : Edge) (s : State) (hvalid : (headResponse (queueAtEdge e s)).isSome) :
    s.delivered.length < (afterEdge e s).delivered.length ∨
      (headResponse (afterEdge e s).inflight).isSome ∧ (afterEdge e s).delivered = s.delivered := by
  cases hready : e.rspReady with
  | true => exact .inl (by rw [delivered_length_of_valid e s hvalid hready]; exact Nat.lt_succ_self _)
  | false =>
    obtain ⟨hq, hd⟩ := afterEdge_of_deliveredAt_nil e s (by rw [deliveredAt, hready]; rfl)
    exact .inr ⟨hq ▸ hvalid, hd⟩

/-- Working on a queue with a request in it brings a response to its head. -/
theorem headResponse_queueAtEdge_of_work (e : Edge) (s : State) (hq : s.inflight ≠ []) (hwork : e.unitAnswers = true) :
    (headResponse (queueAtEdge e s)).isSome := by
  obtain ⟨x, q, hx⟩ := List.exists_cons_of_ne_nil hq
  rw [queueAtEdge, workAtEdge, if_pos hwork, hx, List.cons_append]
  obtain ⟨x', q', hnext, hrsp, -⟩ := answerNext_cons x (q ++ (acceptedAt e s).map fun w => { req := w, rsp := none })
  rw [hnext, headResponse, hrsp]
  rfl

theorem queueAtEdge_ne_nil (e : Edge) (s : State) (hq : s.inflight ≠ []) : queueAtEdge e s ≠ [] := by
  intro hnil
  have hmap := queueAtEdge_map_req e s
  rw [hnil, List.map_nil] at hmap
  exact hq (List.map_eq_nil_iff.mp (List.append_eq_nil_iff.mp hmap.symm).1)

theorem oldestPending_of_head (q : List Entry) (hq : q ≠ []) (hhead : headResponse q = none) :
    (oldestPending q).isSome := by
  obtain ⟨x, q, rfl⟩ := List.exists_cons_of_ne_nil hq
  have hx : x.rsp = none := hhead
  simp [oldestPending, hx]

/-! ### Schedules without end -/

/-- What is kept until `G` happens does come to `G`, once something that forces it happens. -/
theorem exists_of_leadsTo {P B G : Nat → Prop} (hkeep : ∀ n, P n → P (n + 1) ∨ G n) (hact : ∀ n, P n → B n → G n)
    {n m : Nat} (hle : n ≤ m) (hB : B m) (hP : P n) : ∃ k, n ≤ k ∧ G k := by
  obtain ⟨j, rfl⟩ := Nat.exists_eq_add_of_le hle
  clear hle
  induction j generalizing n with
  | zero => exact ⟨n, le_rfl, hact n hP hB⟩
  | succ j ih =>
    rcases hkeep n hP with hnext | hG
    · obtain ⟨k, hk, hG⟩ := ih (n := n + 1) hnext (by rwa [Nat.add_assoc, Nat.add_comm 1 j])
      exact ⟨k, Nat.le_of_succ_le hk, hG⟩
    · exact ⟨n, le_rfl, hG⟩

section
variable {schedule : Nat → Edge} {t : Nat → State} (hexec : Executes schedule t) (hreset : NeverReset schedule)
include hexec hreset

theorem executes_next (n : Nat) :
    requestHeld (schedule n) (t n) = true ∧ t (n + 1) = afterEdge (schedule n) { t n with edges := [] } :=
  step_edge_next { t n with edges := [schedule n] } _ _ _ rfl (hreset n) (hexec n)

theorem executes_accepted (n : Nat) : (t (n + 1)).accepted = (t n).accepted ++ acceptedAt (schedule n) (t n) := by
  rw [(executes_next hexec hreset n).2, afterEdge_eq]
  rfl

theorem executes_held (n : Nat) : (t (n + 1)).held =
    if (schedule n).reqValid && !reqReady (schedule n) (t n) then some (portRequest (schedule n)) else none := by
  rw [(executes_next hexec hreset n).2, afterEdge_eq]
  rfl

theorem executes_due (n : Nat) :
    dueResponses (t (n + 1)) = dueResponses (t n) ++ (acceptedAt (schedule n) (t n)).map answerOf := by
  rw [(executes_next hexec hreset n).2, dueResponses_afterEdge]
  rfl

theorem due_mono {n m : Nat} (h : n ≤ m) : dueResponses (t n) <+: dueResponses (t m) := by
  induction h with
  | refl => exact ⟨[], List.append_nil _⟩
  | step _ ih => exact ih.trans ⟨_, (executes_due hexec hreset _).symm⟩

theorem delivered_length_mono {n m : Nat} (h : n ≤ m) : (t n).delivered.length ≤ (t m).delivered.length := by
  induction h with
  | refl => exact le_rfl
  | step _ ih =>
    refine ih.trans ?_
    rw [(executes_next hexec hreset _).2, afterEdge_eq, List.length_append]
    exact Nat.le_add_right _ _

theorem executes_valid (n : Nat) (hvalid : (headResponse (queueAtEdge (schedule n) (t n))).isSome) :
    (t n).delivered.length < (t (n + 1)).delivered.length ∨
      (headResponse (t (n + 1)).inflight).isSome ∧ (t (n + 1)).delivered = (t n).delivered := by
  rw [(executes_next hexec hreset n).2]
  exact valid_delivered_or_kept (schedule n) { t n with edges := [] } hvalid

/-- A response at the head is delivered in the end (R96, the host's duty). -/
theorem exists_delivered_of_valid (htakes : HostTakes schedule t) (n : Nat)
    (hvalid : (headResponse (t n).inflight).isSome) :
    ∃ m, n ≤ m ∧ (t n).delivered.length < (t m).delivered.length := by
  have hstays (k : Nat) (h : (headResponse (t k).inflight).isSome) :
      (headResponse (queueAtEdge (schedule k) (t k))).isSome := by
    obtain ⟨r, hr⟩ := Option.isSome_iff_exists.mp h
    rw [headResponse_queueAtEdge _ _ r hr]
    rfl
  obtain ⟨m, hm, hready⟩ := htakes n (by rw [portsAt_of_not_rst _ _ (hreset n)]; exact hstays n hvalid)
  suffices hgrown : ∃ k, n ≤ k ∧ (t n).delivered.length < (t (k + 1)).delivered.length by
    obtain ⟨k, hk, hgrown⟩ := hgrown
    exact ⟨k + 1, Nat.le_succ_of_le hk, hgrown⟩
  refine exists_of_leadsTo
    (P := fun k => (headResponse (t k).inflight).isSome ∧ (t k).delivered = (t n).delivered)
    (B := fun k => (schedule k).rspReady = true)
    (fun k ⟨hk, hd⟩ => ?keep) (fun k ⟨hk, hd⟩ hready => ?act) hm hready ⟨hvalid, rfl⟩
  case keep =>
    rw [← hd]
    exact (executes_valid hexec hreset k (hstays k hk)).symm
  case act =>
    have hgrown := delivered_length_of_valid (schedule k) { t k with edges := [] } (hstays k hk) hready
    rw [(executes_next hexec hreset k).2, hgrown, ← hd]
    exact Nat.lt_succ_self _

/-- A request in flight has a response at its head in the end, or one is delivered (R96, the unit's duty). -/
theorem exists_valid_of_inflight (hfair : UnitIsFair schedule t) (n : Nat) (hq : (t n).inflight ≠ []) :
    ∃ m, n ≤ m ∧ ((t n).delivered.length < (t m).delivered.length ∨
      (headResponse (t m).inflight).isSome ∧ (t m).delivered = (t n).delivered) := by
  cases hhead : headResponse (t n).inflight with
  | some r => exact ⟨n, le_rfl, .inr ⟨by rw [hhead]; rfl, rfl⟩⟩
  | none =>
    obtain ⟨m, hm, hwork⟩ := hfair.1 n (oldestPending_of_head _ hq hhead)
    suffices hend : ∃ k, n ≤ k ∧ ((t n).delivered.length < (t (k + 1)).delivered.length ∨
        (headResponse (t (k + 1)).inflight).isSome ∧ (t (k + 1)).delivered = (t n).delivered) by
      obtain ⟨k, hk, hend⟩ := hend
      exact ⟨k + 1, Nat.le_succ_of_le hk, hend⟩
    refine exists_of_leadsTo
      (P := fun k => (t k).inflight ≠ [] ∧ (t k).delivered = (t n).delivered)
      (B := fun k => (schedule k).unitAnswers = true)
      (fun k ⟨hk, hd⟩ => ?keep) (fun k ⟨hk, hd⟩ hwork => ?act) hm hwork ⟨hq, rfl⟩
    case keep =>
      rw [← hd]
      cases hvalid : headResponse (queueAtEdge (schedule k) (t k)) with
      | some r => exact .inr (executes_valid hexec hreset k (by rw [hvalid]; rfl))
      | none =>
        have hnone : deliveredAt (schedule k) (queueAtEdge (schedule k) (t k)) = [] := by simp [deliveredAt, hvalid]
        obtain ⟨hkept, hsame⟩ := afterEdge_of_deliveredAt_nil (schedule k) { t k with edges := [] } hnone
        rw [(executes_next hexec hreset k).2, hkept, hsame]
        exact .inl ⟨queueAtEdge_ne_nil _ _ hk, rfl⟩
    case act =>
      rw [← hd]
      exact executes_valid hexec hreset k (headResponse_queueAtEdge_of_work _ _ hk hwork)

/-- While a request is in flight, one more response is delivered in the end. -/
theorem exists_delivered_of_inflight (hfair : UnitIsFair schedule t) (htakes : HostTakes schedule t) (n : Nat)
    (hq : (t n).inflight ≠ []) : ∃ m, n ≤ m ∧ (t n).delivered.length < (t m).delivered.length := by
  obtain ⟨k, hk, hgrown | ⟨hvalid, hsame⟩⟩ := exists_valid_of_inflight hexec hreset hfair n hq
  · exact ⟨k, hk, hgrown⟩
  · obtain ⟨m, hm, hgrown⟩ := exists_delivered_of_valid hexec hreset htakes k hvalid
    exact ⟨m, hk.trans hm, hsame ▸ hgrown⟩

/-- As many responses are delivered in the end as were due. -/
theorem exists_delivered_length (hfair : UnitIsFair schedule t) (htakes : HostTakes schedule t) (n count : Nat)
    (hcount : count ≤ (dueResponses (t n)).length) : ∃ m, n ≤ m ∧ count ≤ (t m).delivered.length := by
  induction count with
  | zero => exact ⟨n, le_rfl, Nat.zero_le _⟩
  | succ count ih =>
    obtain ⟨m, hm, hdelivered⟩ := ih (Nat.le_of_succ_le hcount)
    rcases Nat.lt_or_ge count (t m).delivered.length with hmore | hno
    · exact ⟨m, hm, hmore⟩
    · have hdue := (due_mono hexec hreset hm).length_le
      rw [length_dueResponses (t m)] at hdue
      have hq : (t m).inflight ≠ [] := List.ne_nil_of_length_pos (by omega)
      obtain ⟨k, hk, hgrown⟩ := exists_delivered_of_inflight hexec hreset hfair htakes m hq
      exact ⟨k, hm.trans hk, by omega⟩

/-- What is due at some edge is delivered in the end, in order. -/
theorem exists_due_delivered (hfair : UnitIsFair schedule t) (htakes : HostTakes schedule t) (n : Nat) :
    ∃ m, n ≤ m ∧ dueResponses (t n) <+: (t m).delivered := by
  obtain ⟨m, hm, hlength⟩ := exists_delivered_length hexec hreset hfair htakes n _ le_rfl
  exact ⟨m, hm, List.prefix_of_prefix_length_le (due_mono hexec hreset hm) ⟨_, rfl⟩ hlength⟩

/-! ### A held request -/

/-- A held request is still presented: it is accepted where the unit is ready, and else held on. -/
theorem executes_of_held (n : Nat) (w : ReqWord) (hheld : (t n).held = some w) :
    (reqReady (schedule n) (t n) = true ∧ (t (n + 1)).accepted = (t n).accepted ++ [w] ∧ (t (n + 1)).held = none) ∨
      (reqReady (schedule n) (t n) = false ∧ (t (n + 1)).held = some w) := by
  have hpresented := (executes_next hexec hreset n).1
  simp only [requestHeld, hheld, Bool.and_eq_true, decide_eq_true_eq] at hpresented
  obtain ⟨hvalid, rfl⟩ := hpresented
  rw [executes_accepted hexec hreset, executes_held hexec hreset]
  cases hready : reqReady (schedule n) (t n) with
  | true => exact .inl ⟨rfl, by rw [acceptedAt_of_ready _ _ hvalid hready], by rw [hvalid]; rfl⟩
  | false => exact .inr ⟨rfl, by rw [hvalid]; rfl⟩

/-- The unit is ready in the end: were it never, its queue would empty and so leave it room from some edge on. -/
theorem exists_ready (hfair : UnitIsFair schedule t) (htakes : HostTakes schedule t) (n : Nat) :
    ∃ m, n ≤ m ∧ reqReady (schedule m) (t m) = true := by
  by_contra hnever
  have hnotReady (m : Nat) (hm : n ≤ m) : reqReady (schedule m) (t m) = false :=
    Bool.eq_false_iff.mpr fun h => hnever ⟨m, hm, h⟩
  have hdue (m : Nat) (hm : n ≤ m) : dueResponses (t m) = dueResponses (t n) := by
    induction hm with
    | refl => rfl
    | step hm ih =>
      rw [executes_due hexec hreset, acceptedAt_of_not_ready _ _ (hnotReady _ hm), List.map_nil, List.append_nil, ih]
  obtain ⟨k, hk, hdelivered⟩ := exists_delivered_length hexec hreset hfair htakes n _ le_rfl
  have hroom (m : Nat) (hm : k ≤ m) : hasRoom (t m) = true := by
    have hlength := length_dueResponses (t m)
    rw [hdue m (hk.trans hm)] at hlength
    have hmono := delivered_length_mono hexec hreset hm
    have hpos : 0 < Config.maxInflight := Nat.succ_pos _
    exact decide_eq_true (by omega)
  obtain ⟨m, hm, hready⟩ := hfair.2 k hroom
  refine hnever ⟨m, hk.trans hm, ?_⟩
  rw [reqReady, hreset m, hready, hroom m hm]
  rfl

/-- A held request is accepted in the end (R96). -/
theorem exists_accepted_of_held (hfair : UnitIsFair schedule t) (htakes : HostTakes schedule t) (n : Nat) (w : ReqWord)
    (hheld : (t n).held = some w) :
    ∃ m, n ≤ m ∧ (t (m + 1)).accepted = (t m).accepted ++ [w] ∧ (t (m + 1)).held = none := by
  obtain ⟨m, hm, hready⟩ := exists_ready hexec hreset hfair htakes n
  refine exists_of_leadsTo (P := fun k => (t k).held = some w) (B := fun k => reqReady (schedule k) (t k) = true)
    (fun k hk => ?keep) (fun k hk hready => ?act) hm hready hheld
  all_goals rcases executes_of_held hexec hreset k w hk with ⟨hr, haccepted⟩ | ⟨hr, hnext⟩
  case keep.inl => exact .inr haccepted
  case keep.inr => exact .inl hnext
  case act.inl => exact haccepted
  case act.inr => cases hr.symm.trans hready

end

/-- Settles O58: what is due is delivered in the end, and a held request waits until the unit is ready. -/
theorem unitMakesProgress : Obligations.UnitMakesProgress := by
  intro schedule t hexec hreset hfair htakes
  exact ⟨exists_due_delivered hexec hreset hfair htakes,
    fun n w => exists_accepted_of_held hexec hreset hfair htakes n w⟩

end Sys2Proof.Machine
end

section
/-!
PROOF. The laws of addition, subtraction and multiplication (R54, R59, R66, R70 to R75). `MUL` is one number: its
response is the signed product of the operands, rounded half away from zero, modulo `2^64`; the laws are laws of that
number.
-/

namespace Sys2Proof.Machine

/-! ### Integers through `FROMINT` -/

theorem toIntResult_fromIntResult (n : HalfLimb) : toIntResult (fromIntResult n) = sext64 n := by
  apply BitVec.eq_of_toInt_eq
  rw [toIntResult_toInt, fromIntResult_toInt, sext64_toInt, Int.mul_ediv_cancel _ (by decide)]

theorem lowHalf_sext64 (n : HalfLimb) : lowHalf (sext64 n) = n := by
  refine BitVec.eq_of_getLsbD_eq fun i hi => ?_
  have hword : i < 64 := by omega
  simp [lowHalf, sext64, hi, hword, BitVec.getElem_signExtend]

theorem AnswersWith.of_eq {i : Instr} {r r' : Word} (h : AnswersWith i (.ok r)) (heq : r = r') :
    AnswersWith i (.ok r') :=
  heq ▸ h

theorem ofInt32_toInt (k : Int) (hlo : -2 ^ 31 ≤ k) (hhi : k ≤ 2 ^ 31 - 1) : (BitVec.ofInt 32 k).toInt = k := by
  rw [BitVec.toInt_ofInt]
  exact Int.bmod_eq_of_le (by omega) (by omega)

/-- `FROMINT` of an integer that fits 32 bits is its multiple of `2^32`. -/
theorem fromIntResult_ofInt (k : Int) (hlo : -2 ^ 31 ≤ k) (hhi : k ≤ 2 ^ 31 - 1) :
    fromIntResult (BitVec.ofInt 32 k) = BitVec.ofInt 64 (k * 2 ^ 32) := by
  rw [fromIntResult_eq_ofInt, ofInt32_toInt k hlo hhi]

/-! ### `MUL` as the rounding of an integer product -/

/-- An integer over `2^32`, rounded to the nearest integer, halves away from zero (R70). -/
def roundHalfAway (p : Int) : Int :=
  p.sign * ((p.natAbs + 2 ^ 31) / 2 ^ 32 : Nat)

theorem roundHalfAway_neg (p : Int) : roundHalfAway (-p) = -roundHalfAway p := by
  rw [roundHalfAway, roundHalfAway, Int.sign_neg, Int.natAbs_neg, Int.neg_mul]

/-- A multiple of `2^32` is not rounded. -/
theorem roundHalfAway_mul (k : Int) : roundHalfAway (k * 2 ^ 32) = k := by
  have hsign : (k * 2 ^ 32).sign = k.sign := by rw [Int.sign_mul]; exact Int.mul_one _
  have habs : ((k * 2 ^ 32).natAbs + 2 ^ 31) / 2 ^ 32 = k.natAbs := by omega
  rw [roundHalfAway, hsign, habs, Int.sign_mul_natAbs]

/-- The rounding is at most half a unit off, and by exactly half only away from zero. -/
theorem roundHalfAway_error (p : Int) :
    |roundHalfAway p * 2 ^ 32 - p| ≤ 2 ^ 31 ∧
      (|roundHalfAway p * 2 ^ 32 - p| = 2 ^ 31 → |p| < |roundHalfAway p| * 2 ^ 32) := by
  unfold roundHalfAway
  rcases Int.lt_trichotomy p 0 with hneg | rfl | hpos
  · rw [Int.sign_eq_neg_one_of_neg hneg]
    simp only [Int.abs_eq_natAbs]
    omega
  · decide
  · rw [Int.sign_eq_one_of_pos hpos]
    simp only [Int.abs_eq_natAbs]
    omega

/-- The sign of the closed form is `1` or `-1`. -/
theorem mulResult_eq_sign_mul (x y : Word) : mulResult x y =
    BitVec.ofInt 64 ((if x.msb = y.msb then (1 : Int) else -1) * roundedMagnitude x y) := by
  split
  next h => rw [mulResult_of_msb_eq x y h, one_mul, BitVec.ofInt_natCast]
  next h => rw [mulResult_of_msb_ne x y h, neg_one_mul]

theorem sign_of_msb (x : Word) (hx : x ≠ 0) : x.toInt.sign = if x.msb then -1 else 1 := by
  cases h : x.msb with
  | true => exact Int.sign_eq_neg_one_of_neg (BitVec.toInt_neg_of_msb_true h)
  | false =>
    refine Int.sign_eq_one_of_pos (lt_of_le_of_ne (BitVec.toInt_nonneg_of_msb_false h) fun hzero => hx ?_)
    exact BitVec.eq_of_toInt_eq hzero.symm

/-- With its sign, the rounded magnitude is the rounded integer product. -/
theorem sign_mul_roundedMagnitude (x y : Word) :
    (if x.msb = y.msb then (1 : Int) else -1) * roundedMagnitude x y = roundHalfAway (x.toInt * y.toInt) := by
  rw [roundHalfAway, roundedMagnitude, Int.natAbs_mul]
  by_cases hx : x = 0
  · subst hx; simp
  by_cases hy : y = 0
  · subst hy; simp
  · rw [Int.sign_mul, sign_of_msb x hx, sign_of_msb y hy]
    cases x.msb <;> cases y.msb <;> rfl

/-- The response of `MUL` as a number (R70, R72). -/
theorem mulResult_eq_ofInt (x y : Word) : mulResult x y = BitVec.ofInt 64 (roundHalfAway (x.toInt * y.toInt)) := by
  rw [mulResult_eq_sign_mul, sign_mul_roundedMagnitude]

theorem mulResult_toInt (x y : Word) : (mulResult x y).toInt = (roundHalfAway (x.toInt * y.toInt)).bmod (2 ^ 64) := by
  rw [mulResult_eq_ofInt, BitVec.toInt_ofInt]

theorem mulResult_comm (x y : Word) : mulResult x y = mulResult y x := by
  rw [mulResult_eq_ofInt, mulResult_eq_ofInt, Int.mul_comm]

theorem one_toInt : (0x0000000100000000 : Word).toInt = 2 ^ 32 := by decide

theorem mulResult_one (x : Word) : mulResult x 0x0000000100000000 = x := by
  rw [mulResult_eq_ofInt, one_toInt, roundHalfAway_mul, BitVec.ofInt_toInt]

theorem mulResult_zero (x : Word) : mulResult x 0 = 0 := by
  have hzero : x.toInt * (0 : Word).toInt = 0 := Int.mul_zero _
  rw [mulResult_eq_ofInt, hzero]
  rfl

/-- Negation of every word but `MINIMUM` negates its number (R8). -/
theorem neg_toInt (x : Word) (h : x ≠ 0x8000000000000000) : (-x).toInt = -x.toInt :=
  BitVec.toInt_neg_of_ne_intMin h

theorem mulResult_neg_left (x y : Word) (h : x ≠ 0x8000000000000000) : mulResult (-x) y = -mulResult x y := by
  rw [mulResult_eq_ofInt, mulResult_eq_ofInt, neg_toInt x h, Int.neg_mul, roundHalfAway_neg, BitVec.ofInt_neg]

theorem mulResult_neg_right (x y : Word) (h : y ≠ 0x8000000000000000) : mulResult x (-y) = -mulResult x y := by
  rw [mulResult_comm x (-y), mulResult_neg_left y x h, mulResult_comm y x]

/-- Integers multiply as their Q32 values (R73 item 3). -/
theorem mulResult_fromIntResult (m n : HalfLimb) :
    mulResult (fromIntResult m) (fromIntResult n) = BitVec.ofInt 64 (m.toInt * n.toInt * 2 ^ 32) := by
  have hproduct : m.toInt * 2 ^ 32 * (n.toInt * 2 ^ 32) = m.toInt * n.toInt * 2 ^ 32 * 2 ^ 32 := by ring
  rw [mulResult_eq_ofInt, fromIntResult_toInt, fromIntResult_toInt, hproduct, roundHalfAway_mul]

/-- Without overflow the response is the rounded product itself. -/
theorem mulResult_toInt_of_fits (x y : Word) (hsame : x.msb = y.msb → roundedMagnitude x y ≤ 2 ^ 63 - 1)
    (hdiff : x.msb ≠ y.msb → roundedMagnitude x y ≤ 2 ^ 63) :
    (mulResult x y).toInt = roundHalfAway (x.toInt * y.toInt) := by
  rw [mulResult_toInt, ← sign_mul_roundedMagnitude]
  split
  next h => have hmag := hsame h; exact bmod_of_fits _ (by omega) (by omega)
  next h => have hmag := hdiff h; exact bmod_of_fits _ (by omega) (by omega)

/-! ### The reference path (R75) -/

theorem reattachSign_reference (negative : Bool) (raw : Word) : reattachSign false negative raw = raw := rfl

theorem mulResultWith_false (x y : Word) : mulResultWith false x y = BitVec.ofNat 64 (roundedMagnitude x y) := by
  rw [mulResultWith, roundMagnitude_wideMultiply, reattachSign_reference]

/-- The words that are their own negation are 0 and `2^63` (R8). -/
theorem eq_neg_iff (w : Word) : w = -w ↔ w.toNat = 0 ∨ w.toNat = 2 ^ 63 := by
  have hlt := w.isLt
  rw [← BitVec.toNat_inj, BitVec.toNat_neg]
  omega

/-! ### The WideProduct (R19, R21, R66, R71) -/

theorem magnitude_product_le (x y : Word) : x.toInt.natAbs * y.toInt.natAbs ≤ 2 ^ 63 * 2 ^ 63 := by
  rw [← magnitude_toNat, ← magnitude_toNat]
  exact Nat.mul_le_mul (magnitude_toNat_le x) (magnitude_toNat_le y)

theorem wideMultiply_high_le (x y : Word) : (wideMultiply x y).high.toNat ≤ 2 ^ 62 := by
  have hwide := wideMagnitude_wideMultiply x y
  have hle := magnitude_product_le x y
  rw [wideMagnitude] at hwide
  omega

/-- Only `MINIMUM` has the largest magnitude. -/
theorem eq_minimum_of_natAbs (x : Word) (h : 2 ^ 63 ≤ x.toInt.natAbs) : x = 0x8000000000000000 := by
  have hx := word_toInt_bounds x
  apply BitVec.eq_of_toInt_eq
  have hmin : (0x8000000000000000 : Word).toInt = -2 ^ 63 := by decide
  omega

/-- A product of `2^126` is that of two magnitudes `2^63`. -/
theorem natAbs_of_product_ge (x y : Word) (h : 2 ^ 63 * 2 ^ 63 ≤ x.toInt.natAbs * y.toInt.natAbs) :
    2 ^ 63 ≤ x.toInt.natAbs := by
  by_contra hlt
  have hx : x.toInt.natAbs ≤ 2 ^ 63 - 1 := by omega
  have hy : y.toInt.natAbs ≤ 2 ^ 63 := magnitude_toNat y ▸ magnitude_toNat_le y
  have hle := Nat.mul_le_mul hx hy
  omega

theorem highHalf_magnitude_le (x : Word) : (highHalf (magnitude x)).toNat ≤ 2 ^ 31 := by
  have hle := magnitude_toNat_le x
  rw [highHalf_toNat]
  omega

theorem lowHalf_le (w : Word) : (lowHalf w).toNat ≤ 2 ^ 32 - 1 :=
  Nat.le_sub_one_of_lt (lowHalf_toNat_lt w)

/-- The products with an upper half-limb of a magnitude (R71). -/
theorem limbProduct_le_of_le (p q : HalfLimb) (m n : Nat) (hp : p.toNat ≤ m) (hq : q.toNat ≤ n) :
    (limbProduct p q).toNat ≤ m * n :=
  limbProduct_toNat p q ▸ Nat.mul_le_mul hp hq

theorem wideMultiply_low_eq_append (x y : Word) : (wideMultiply x y).low =
    ((middleColumn (crossProducts (magnitude x) (magnitude y))).1 ++
      lowHalf (crossProducts (magnitude x) (magnitude y)).d : BitVec 64) := by
  apply BitVec.eq_of_toNat_eq
  rw [append_toNat, wideMultiply, assembleLow_toNat, lowColumns, Nat.add_comm]

/-! ### Values as integers over `2^64` (R11) -/

theorem abs_over_scale (n : Int) : |(n : ℚ) / 2 ^ 64| = ((|n| : Int) : ℚ) / 2 ^ 64 := by
  rw [abs_div, Int.cast_abs, abs_of_pos (by positivity : (0 : ℚ) < 2 ^ 64)]

theorem fixedValue_eq_over_scale (r : Word) : fixedValue r = ((r.toInt * 2 ^ 32 : Int) : ℚ) / 2 ^ 64 := by
  rw [fixedValue]
  push_cast
  ring

theorem fixedValue_mul_eq_over_scale (x y : Word) :
    fixedValue x * fixedValue y = ((x.toInt * y.toInt : Int) : ℚ) / 2 ^ 64 := by
  rw [fixedValue, fixedValue]
  push_cast
  ring

/-! ### The obligations -/

/-- Settles O21: the upper half-limb of `{n, 0}` is `n`. -/
theorem fromIntThenToIntRoundTrips : Obligations.FromIntThenToIntRoundTrips := by
  intro n
  refine ⟨fromIntResult n, answersWith_fromint n, ?_, ?_⟩
  · exact (answersWith_toint _).of_eq (toIntResult_fromIntResult n)
  · exact lowHalf_sext64 n

/-- Settles O27: addition modulo `2^64` is a group, and `FROMINT` multiplies by `2^32`. -/
theorem addSubLaws : Obligations.AddSubLaws := by
  refine ⟨fun x y => ⟨_, answersWith_add x y, (answersWith_sub _ y).of_eq (add_sub_cancel_right x y)⟩,
    fun x y => ⟨_, answersWith_sub x y, (answersWith_add _ y).of_eq (sub_add_cancel x y)⟩,
    fun x y z => ⟨_, _, _, answersWith_add x y, answersWith_add y z, answersWith_add _ z,
      (answersWith_add x _).of_eq (add_assoc x y z).symm⟩,
    fun m n hlo hhi => ⟨_, _, _, answersWith_fromint m, answersWith_fromint n, answersWith_add _ _,
      (answersWith_fromint _).of_eq ?sum⟩,
    fun m n hlo hhi => ⟨_, _, _, answersWith_fromint m, answersWith_fromint n, answersWith_sub _ _,
      (answersWith_fromint _).of_eq ?difference⟩⟩
  case sum =>
    rw [fromIntResult_ofInt _ hlo hhi, addResult_eq_ofInt, fromIntResult_toInt, fromIntResult_toInt, Int.add_mul]
  case difference =>
    rw [fromIntResult_ofInt _ hlo hhi, subResult_eq_ofInt_toInt, fromIntResult_toInt, fromIntResult_toInt, Int.sub_mul]

/-- Settles O33: the columns are the exact product, which is at most `2^126` and that only for two `MINIMUM`s. -/
theorem wideProductIsExact : Obligations.WideProductIsExact := by
  intro x y
  refine ⟨wideMagnitude_wideMultiply x y, wideMultiply_isNegative x y, wideMultiply_low_eq_append x y,
    wideMultiply_high_le x y, fun hhigh => ?_⟩
  have hwide := wideMagnitude_wideMultiply x y
  have hle := magnitude_product_le x y
  rw [wideMagnitude, hhigh] at hwide
  have hlow : (wideMultiply x y).low.toNat = 0 := by omega
  have hx := natAbs_of_product_ge x y (by omega)
  have hy := natAbs_of_product_ge y x (by rw [Nat.mul_comm y.toInt.natAbs]; omega)
  exact ⟨eq_minimum_of_natAbs x hx, eq_minimum_of_natAbs y hy, BitVec.eq_of_toNat_eq hlow⟩

/-- Settles O38: the rounding of the integer product is at most half a unit off, halves away from zero. -/
theorem mulIsCorrectlyRounded : Obligations.MulIsCorrectlyRounded := by
  intro x y mag hsame hdiff
  have hr := mulResult_toInt_of_fits x y hsame hdiff
  obtain ⟨herror, htie⟩ := roundHalfAway_error (x.toInt * y.toInt)
  have hhalf : (1 : ℚ) / 2 ^ 33 = ((2 ^ 31 : Int) : ℚ) / 2 ^ 64 := by norm_num
  have hscale : (0 : ℚ) < 2 ^ 64 := by positivity
  have habs (n : Int) : |n * 2 ^ 32| = |n| * 2 ^ 32 := by rw [abs_mul]; rfl
  refine ⟨mulResult x y, answersWith_mul x y, ?_⟩
  rw [fixedValue_mul_eq_over_scale, fixedValue_eq_over_scale, hr, ← sub_div, ← Int.cast_sub, abs_over_scale,
    abs_over_scale, abs_over_scale, hhalf, div_le_div_iff_of_pos_right hscale, div_lt_div_iff_of_pos_right hscale,
    div_left_inj' hscale.ne', Int.cast_le, Int.cast_lt, Int.cast_inj, habs]
  exact ⟨herror, htie⟩

/-- Settles O39: the response is the balanced remainder of the signed product. -/
theorem mulOverflowWraps : Obligations.MulOverflowWraps := by
  intro x y
  refine ⟨mulResult x y, answersWith_mul x y, ?_⟩
  have hsigned := sign_mul_roundedMagnitude x y
  rw [roundedMagnitude] at hsigned
  rw [mulResult_toInt, hsigned]
  exact Int.emod_eq_emod_iff_emod_sub_eq_zero.mp (Int.bmod_emod)

/-- Settles O40: `ONE` is `2^32`, whose product is not rounded; integer products commute. -/
theorem mulIdentityZeroCommute : Obligations.MulIdentityZeroCommute := by
  refine ⟨fun x => ⟨?oneRight, ?oneLeft⟩, fun x => ⟨?zeroRight, ?zeroLeft⟩, fun x y s => ?commute⟩
  case oneRight => simpa only [mulResult_one] using answersWith_mul x 0x0000000100000000
  case oneLeft => simpa only [mulResult_comm _ x, mulResult_one] using answersWith_mul 0x0000000100000000 x
  case zeroRight => simpa only [mulResult_zero] using answersWith_mul x 0
  case zeroLeft => simpa only [mulResult_comm _ x, mulResult_zero] using answersWith_mul 0 x
  case commute => rw [exec_mul, exec_mul, mulResult_comm]

/-- Settles O41: a negation other than that of `MINIMUM` negates the integer product, and that of `MINIMUM` does
nothing. -/
theorem mulSignConsistency : Obligations.MulSignConsistency := by
  intro x y
  have hmin : -(0x8000000000000000 : Word) = 0x8000000000000000 := neg64_minimum
  refine ⟨mulResult x y, answersWith_mul x y, fun hx => (answersWith_mul _ _).of_eq (mulResult_neg_left x y hx),
    fun hx => (answersWith_mul _ _).of_eq (by rw [hx, hmin]), fun hboth => (answersWith_mul _ _).of_eq ?both,
    fun hone => (answersWith_mul _ _).of_eq ?one⟩
  case both =>
    by_cases hx : x = 0x8000000000000000
    · rw [hx, hboth.mp hx, hmin]
    · rw [mulResult_neg_left x _ hx, mulResult_neg_right x y (mt hboth.mpr hx), neg_neg]
  case one =>
    by_cases hx : x = 0x8000000000000000
    · have hy : y ≠ 0x8000000000000000 := fun hy => hone (iff_of_true hx hy)
      rw [hx, hmin, mulResult_neg_right _ y hy]
    · have hy : y = 0x8000000000000000 := by_contra fun hy => hone (iff_of_false hx hy)
      rw [mulResult_neg_left x _ hx, hy, hmin]

/-- Settles O42: the integer product is a multiple of `2^32`, which is not rounded. -/
theorem mulAgreesOnIntegers : Obligations.MulAgreesOnIntegers := by
  intro m n hlo hhi
  have hproduct : fromIntResult (BitVec.ofInt 32 (m.toInt * n.toInt)) =
      mulResult (fromIntResult m) (fromIntResult n) := by
    rw [fromIntResult_ofInt _ hlo hhi, mulResult_fromIntResult]
  refine ⟨_, _, _, _, answersWith_fromint m, answersWith_fromint n, answersWith_mul _ _,
    hproduct ▸ answersWith_fromint _, answersWith_toint _, ?_⟩
  rw [← hproduct, toIntResult_fromIntResult, sext64_toInt, ofInt32_toInt _ hlo hhi]

/-- Settles O43: the two paths differ by a negation where the signs differ, which only 0 and `2^63` do not show. -/
theorem referencePathDiffersBySign : Obligations.ReferencePathDiffersBySign := by
  intro x y mag
  refine ⟨mulResultWith_false x y, answersWith_mul x y, ?_⟩
  rw [← msb_eq_bit63, ← msb_eq_bit63, mulResultWith_false]
  have htrue : mulResultWith true x y = mulResult x y := rfl
  rw [htrue]
  by_cases h : x.msb = y.msb
  · exact iff_of_true (mulResult_of_msb_eq x y h).symm (.inl h)
  · rw [mulResult_of_msb_ne x y h, ← neg_ofNat, eq_neg_iff, BitVec.toNat_ofNat]
    exact (or_iff_right h).symm

/-- Settles O44: the two halves of the test are the two ways to reach `2^63`. -/
theorem isBigMeansAtLeastTwoTo63 : Obligations.IsBigMeansAtLeastTwoTo63 := by
  intro p
  have hlow := p.low.isLt
  have hbit : p.low.getLsbD 63 = true ↔ 2 ^ 63 ≤ p.low.toNat := by
    rw [← msb_eq_bit63, BitVec.msb_eq_decide, decide_eq_true_eq]
  have hhigh : p.high = 0 ↔ p.high.toNat = 0 := BitVec.toNat_inj.symm
  rw [isBig, wideMagnitude, Bool.or_eq_true, bne_iff_ne, ne_eq, hbit, hhigh]
  omega

/-- Settles O45: each bound is that of a half-limb, of a limb product, of its column or of the assembled word. -/
theorem mulBounds : Obligations.MulBounds := by
  intro x y
  have hx := highHalf_magnitude_le x
  have hy := highHalf_magnitude_le y
  have he : (crossProducts (magnitude x) (magnitude y)).e.toNat ≤ (2 ^ 32 - 1) * 2 ^ 31 :=
    limbProduct_le_of_le _ _ _ _ (lowHalf_le _) hy
  have hf : (crossProducts (magnitude x) (magnitude y)).f.toNat ≤ 2 ^ 31 * (2 ^ 32 - 1) :=
    limbProduct_le_of_le _ _ _ _ hx (lowHalf_le _)
  have hg : (crossProducts (magnitude x) (magnitude y)).g.toNat ≤ 2 ^ 31 * 2 ^ 31 :=
    limbProduct_le_of_le _ _ _ _ hx hy
  have hmiddle := middleSum_le (magnitude x) (magnitude y)
  refine ⟨⟨magnitude_toNat_le x, magnitude_toNat_le y⟩, ⟨hx, hy⟩, ⟨lowHalf_le _, lowHalf_le _⟩,
    limbProduct_toNat_le _ _, ⟨he, by omega⟩, by omega, highHalf_limbProduct_le _ _, ⟨?e, ?f⟩, ?g, hmiddle, ?carry,
    wideMultiply_high_le x y, highColumns_lt _ _, lowColumns_lt _⟩
  case carry => rw [middleColumn_carry_toNat]; omega
  all_goals rw [highHalf_toNat]; omega

end Sys2Proof.Machine
end

section
/-!
PROOF. `TODBL` (R52, R53, D12). Over the common denominator `2^1075` every normal binary64 number is an integer, its
significand times a power of 2, and so is every Q32 value. The significand is rounded to a multiple of the unit of the
value's binade; no binary64 number lies strictly between two such multiples, so none is nearer than the one taken.
-/

namespace Sys2Proof.Machine

/-! ### Rounding to a multiple of a unit -/

/-- `rounded` is one of the two multiples of `unit` about `target`, no more than half a unit away, and `even` holds
where it is exactly half a unit away. -/
structure RoundedAt (quotient unit target rounded : Nat) (even : Prop) : Prop where
  below : quotient * unit ≤ target
  above : target < (quotient + 1) * unit
  neighbour : rounded = quotient * unit ∨ rounded = (quotient + 1) * unit
  near : 2 * target ≤ 2 * rounded + unit ∧ 2 * rounded ≤ 2 * target + unit
  tie : 2 * target = 2 * rounded + unit ∨ 2 * rounded = 2 * target + unit → even

theorem RoundedAt.imp {quotient unit target rounded : Nat} {even even' : Prop}
    (h : RoundedAt quotient unit target rounded even) (heven : even → even') :
    RoundedAt quotient unit target rounded even' :=
  { h with tie := fun htie => heven (h.tie htie) }

theorem RoundedAt.scale {quotient unit target rounded : Nat} {even : Prop}
    (h : RoundedAt quotient unit target rounded even) (c : Nat) (hc : 0 < c) :
    RoundedAt quotient (unit * c) (target * c) (rounded * c) even where
  below := by rw [← Nat.mul_assoc]; exact Nat.mul_le_mul_right c h.below
  above := by rw [← Nat.mul_assoc]; exact Nat.mul_lt_mul_of_pos_right h.above hc
  neighbour := by rw [← Nat.mul_assoc, ← Nat.mul_assoc]; exact h.neighbour.imp (congrArg (· * c)) (congrArg (· * c))
  near := by
    rw [← Nat.mul_assoc, ← Nat.mul_assoc, ← Nat.add_mul, ← Nat.add_mul]
    exact ⟨Nat.mul_le_mul_right c h.near.1, Nat.mul_le_mul_right c h.near.2⟩
  tie := by
    rw [← Nat.mul_assoc, ← Nat.mul_assoc, ← Nat.add_mul, ← Nat.add_mul, Nat.mul_left_inj hc.ne',
      Nat.mul_left_inj hc.ne']
    exact h.tie

theorem RoundedAt.shift {quotient k m p n k' : Nat} {even : Prop}
    (h : RoundedAt quotient (2 ^ k) (m * 2 ^ p) (n * 2 ^ k') even) (j : Nat) :
    RoundedAt quotient (2 ^ (k + j)) (m * 2 ^ (p + j)) (n * 2 ^ (k' + j)) even := by
  rw [pow_add, pow_add, pow_add, ← Nat.mul_assoc, ← Nat.mul_assoc]
  exact h.scale _ (Nat.two_pow_pos j)

/-- A multiple of the unit is not rounded. -/
theorem RoundedAt.eq_target_of_dvd {quotient unit target rounded : Nat} {even : Prop}
    (h : RoundedAt quotient unit target rounded even) (hdvd : unit ∣ target) : rounded = target := by
  obtain ⟨c, rfl⟩ := hdvd
  have hbelow := h.below
  have habove := h.above
  have hunit : 0 < unit := by
    by_contra hzero
    obtain rfl : unit = 0 := by omega
    simp at habove
  rw [Nat.mul_comm unit c] at hbelow habove ⊢
  have hc : c = quotient :=
    Nat.le_antisymm (Nat.le_of_lt_succ (Nat.lt_of_mul_lt_mul_right habove)) (Nat.le_of_mul_le_mul_right hbelow hunit)
  have hnear := h.near
  rw [hc]
  rcases h.neighbour with hr | hr
  · exact hr
  · rw [Nat.succ_mul] at hr
    rw [Nat.mul_comm unit c, hc] at hnear
    omega

/-- No integer outside the two multiples about the target is nearer to it than the rounding, and one equally near
makes it a tie. -/
theorem RoundedAt.nearest {quotient unit target rounded : Nat} {even : Prop}
    (h : RoundedAt quotient unit target rounded even) (other : Int) (hne : other ≠ rounded)
    (hgap : other ≤ (quotient * unit : Nat) ∨ ((quotient + 1) * unit : Nat) ≤ other) :
    |(rounded : Int) - target| ≤ |other - target| ∧ (|(rounded : Int) - target| = |other - target| → even) := by
  obtain ⟨hbelow, habove, hneighbour, hnear, htie⟩ := h
  rw [Nat.succ_mul] at habove hneighbour hgap
  rw [Int.abs_eq_natAbs, Int.abs_eq_natAbs]
  refine ⟨by omega, fun heq => htie ?_⟩
  omega

/-! ### The rounded significand (R52) -/

/-- `m / 2^sh`, rounded to the nearest integer, ties to even. -/
def roundedQuotient (m sh : Nat) : Nat :=
  if decide (2 ^ (sh - 1) < m % 2 ^ sh) || (decide (m % 2 ^ sh = 2 ^ (sh - 1)) && decide (m / 2 ^ sh % 2 = 1)) then
    m / 2 ^ sh + 1
  else m / 2 ^ sh

theorem roundedQuotient_roundedAt (m sh : Nat) (hsh : 0 < sh) :
    RoundedAt (m / 2 ^ sh) (2 ^ sh) m (roundedQuotient m sh * 2 ^ sh) (roundedQuotient m sh % 2 = 0) := by
  have hhalf : 2 ^ sh = 2 * 2 ^ (sh - 1) := by rw [← pow_succ', Nat.sub_add_cancel hsh]
  have hdiv := Nat.div_add_mod' m (2 ^ sh)
  have hmod := Nat.mod_lt m (Nat.two_pow_pos sh)
  have hsucc : (m / 2 ^ sh + 1) * 2 ^ sh = m / 2 ^ sh * 2 ^ sh + 2 ^ sh := Nat.succ_mul _ _
  simp only [roundedQuotient, Bool.or_eq_true, Bool.and_eq_true, decide_eq_true_eq]
  split
  next hup =>
    exact ⟨by omega, by omega, .inr rfl, by omega, by omega⟩
  next hdown =>
    exact ⟨by omega, by omega, .inl rfl, by omega, by omega⟩

theorem roundSignificand_of_le (m k : Nat) (h : k ≤ 52) : roundSignificand m k = (m * 2 ^ (52 - k), k) := by
  rw [roundSignificand, if_pos h]

theorem roundSignificand_of_lt (m k : Nat) (h : 52 < k) : roundSignificand m k =
    if roundedQuotient m (k - 52) = 2 ^ 53 then (2 ^ 52, k + 1) else (roundedQuotient m (k - 52), k) := by
  rw [roundSignificand, if_neg (by omega)]
  rfl

theorem quotient_bounds (m sh : Nat) (hlo : 2 ^ (sh + 52) ≤ m) (hhi : m < 2 ^ (sh + 52 + 1)) :
    2 ^ 52 ≤ m / 2 ^ sh ∧ m / 2 ^ sh < 2 ^ 53 := by
  rw [Nat.le_div_iff_mul_le (Nat.two_pow_pos sh), Nat.div_lt_iff_lt_mul (Nat.two_pow_pos sh), ← pow_add, ← pow_add]
  exact ⟨Nat.add_comm 52 sh ▸ hlo, Nat.add_comm 53 sh ▸ hhi⟩

theorem roundedQuotient_eq_or (m sh : Nat) :
    roundedQuotient m sh = m / 2 ^ sh ∨ roundedQuotient m sh = m / 2 ^ sh + 1 := by
  unfold roundedQuotient
  split
  · exact .inr rfl
  · exact .inl rfl

/-- What the rounding of a magnitude `m` at its bit `k - 52` comes to: 53 bits `q` of weight `2^(k' - 52)`. -/
structure IsSignificand (m k q k' : Nat) : Prop where
  normal : 2 ^ 52 ≤ q ∧ q < 2 ^ 53
  rounded : ∃ quotient, 2 ^ 52 ≤ quotient ∧ RoundedAt quotient (2 ^ k) (m * 2 ^ 52) (q * 2 ^ k') (q % 2 = 0)

/-- A magnitude of at most 53 bits is its own significand. -/
theorem isSignificand_of_le (m k : Nat) (hk : k ≤ 52) (hlo : 2 ^ k ≤ m) (hhi : m < 2 ^ (k + 1)) :
    IsSignificand m k (m * 2 ^ (52 - k)) k := by
  have hpow : 2 ^ k * 2 ^ (52 - k) = 2 ^ 52 := by rw [← pow_add, Nat.add_sub_cancel' hk]
  have hexact : m * 2 ^ (52 - k) * 2 ^ k = m * 2 ^ 52 := by rw [Nat.mul_assoc, Nat.mul_comm (2 ^ (52 - k)), hpow]
  have hpos := Nat.two_pow_pos k
  have hbelow := Nat.mul_le_mul_right (2 ^ (52 - k)) hlo
  have habove := Nat.mul_lt_mul_of_pos_right hhi (Nat.two_pow_pos (52 - k))
  rw [pow_succ, Nat.mul_right_comm] at habove
  have hsucc : (m * 2 ^ (52 - k) + 1) * 2 ^ k = m * 2 ^ (52 - k) * 2 ^ k + 2 ^ k := Nat.succ_mul _ _
  exact ⟨⟨by omega, by omega⟩, _, by omega, by omega, by omega, .inl rfl, by omega, by omega⟩

/-- A longer magnitude is rounded at bit `sh`; a carry out of 53 bits moves the exponent (R52). -/
theorem isSignificand_roundSignificand (m sh : Nat) (hsh : 0 < sh) (hlo : 2 ^ (sh + 52) ≤ m)
    (hhi : m < 2 ^ (sh + 52 + 1)) :
    IsSignificand m (sh + 52) (roundSignificand m (sh + 52)).1 (roundSignificand m (sh + 52)).2 := by
  obtain ⟨hquotient, hquotient'⟩ := quotient_bounds m sh hlo hhi
  have hrounded := (roundedQuotient_roundedAt m sh hsh).scale (2 ^ 52) (by positivity)
  rw [Nat.mul_assoc, ← pow_add] at hrounded
  rw [roundSignificand_of_lt m _ (by omega), Nat.add_sub_cancel]
  split
  next hcarry =>
    have hweight : 2 ^ 53 * 2 ^ (sh + 52) = 2 ^ 52 * 2 ^ (sh + 52 + 1) := by ring
    rw [hcarry, hweight] at hrounded
    exact ⟨⟨le_rfl, (by decide : 2 ^ 52 < 2 ^ 53)⟩, _, hquotient, hrounded.imp fun _ => (by decide : 2 ^ 52 % 2 = 0)⟩
  next hfits =>
    have hor := roundedQuotient_eq_or m sh
    exact ⟨⟨by omega, by omega⟩, _, hquotient, hrounded⟩

theorem roundSignificand_isSignificand (m k : Nat) (hlo : 2 ^ k ≤ m) (hhi : m < 2 ^ (k + 1)) :
    IsSignificand m k (roundSignificand m k).1 (roundSignificand m k).2 := by
  rcases Nat.lt_or_ge 52 k with hk | hk
  · obtain ⟨sh, rfl⟩ : ∃ sh, k = sh + 52 := ⟨k - 52, by omega⟩
    exact isSignificand_roundSignificand m sh (by omega) hlo hhi
  · rw [roundSignificand_of_le m k hk]
    exact isSignificand_of_le m k hk hlo hhi

/-- The exponent stays within that of `2^63`, the largest magnitude. -/
theorem IsSignificand.exponent_le {m k q k' : Nat} (h : IsSignificand m k q k') (hm : m ≤ 2 ^ 63) (hk : k ≤ 63) :
    k' ≤ 63 := by
  by_contra hlarge
  obtain ⟨⟨hq, -⟩, quotient, -, hrounded⟩ := h
  have hunit : 2 ^ k ≤ 2 ^ 63 := Nat.pow_le_pow_right (by decide) hk
  have hweight : 2 ^ 64 ≤ 2 ^ k' := Nat.pow_le_pow_right (by decide) (by omega)
  have hproduct := Nat.mul_le_mul hq hweight
  have hnear := hrounded.near.2
  omega

/-! ### The fields of a binary64 pattern (R53) -/

theorem doubleExponent_eq (r : Word) : doubleExponent r = r.toNat / 2 ^ 52 % 2 ^ 11 := by
  rw [doubleExponent, BitVec.extractLsb'_toNat, Nat.shiftRight_eq_div_pow]

theorem doubleFraction_eq (r : Word) : doubleFraction r = r.toNat % 2 ^ 52 := by
  rw [doubleFraction, BitVec.extractLsb'_toNat, Nat.shiftRight_zero]

theorem doubleFraction_lt (r : Word) : doubleFraction r < 2 ^ 52 := by
  rw [doubleFraction_eq]
  exact Nat.mod_lt _ (by positivity)

/-- A pattern is its three fields. -/
theorem double_ext (r d : Word) (hsign : r.msb = d.msb) (hexp : doubleExponent r = doubleExponent d)
    (hfrac : doubleFraction r = doubleFraction d) : r = d := by
  have hr := r.isLt
  have hd := d.isLt
  rw [BitVec.msb_eq_decide, BitVec.msb_eq_decide, decide_eq_decide] at hsign
  rw [doubleExponent_eq, doubleExponent_eq] at hexp
  rw [doubleFraction_eq, doubleFraction_eq] at hfrac
  apply BitVec.eq_of_toNat_eq
  omega

section
variable (sign : Bool) (e frac : Nat)

theorem doubleFraction_packDouble (hfrac : frac < 2 ^ 52) : doubleFraction (packDouble sign e frac) = frac := by
  rw [doubleFraction_eq, packDouble_toNat]
  omega

theorem doubleExponent_packDouble (he : e < 2 ^ 11) : doubleExponent (packDouble sign e frac) = e := by
  have hfrac := Nat.mod_lt frac (by decide : 0 < 2 ^ 52)
  rw [doubleExponent_eq, packDouble_toNat]
  omega

theorem msb_packDouble : (packDouble sign e frac).msb = sign := by
  have hfrac := Nat.mod_lt frac (by decide : 0 < 2 ^ 52)
  rw [BitVec.msb_eq_decide, packDouble_toNat]
  cases sign with
  | false => exact decide_eq_false (by rw [Bool.toNat_false]; omega)
  | true => exact decide_eq_true (by rw [Bool.toNat_true]; omega)

end

/-! ### Normal binary64 numbers as integers over `2^1075` -/

/-- The magnitude of a normal pattern's value, times `2^1075` (R53). -/
def doubleMagnitude (r : Word) : Nat :=
  (2 ^ 52 + doubleFraction r) * 2 ^ doubleExponent r

/-- The sign of a word, as a factor. -/
def signFactor (r : Word) : Int :=
  if r.msb then -1 else 1

theorem signFactor_cases (r : Word) : r.msb = true ∧ signFactor r = -1 ∨ r.msb = false ∧ signFactor r = 1 := by
  rw [signFactor]
  cases r.msb <;> simp

theorem doubleMagnitude_pos (r : Word) : 0 < doubleMagnitude r := by
  rw [doubleMagnitude]; positivity

/-- Of two patterns the one with the smaller exponent has the smaller magnitude. -/
theorem doubleMagnitude_lt (r d : Word) (h : doubleExponent r < doubleExponent d) :
    doubleMagnitude r < doubleMagnitude d := by
  have hfrac := doubleFraction_lt r
  calc doubleMagnitude r < 2 ^ 53 * 2 ^ doubleExponent r :=
        Nat.mul_lt_mul_of_pos_right (by omega) (Nat.two_pow_pos _)
    _ = 2 ^ 52 * 2 ^ (doubleExponent r + 1) := by ring
    _ ≤ doubleMagnitude d := Nat.mul_le_mul (Nat.le_add_right _ _) (Nat.pow_le_pow_right (by decide) h)

/-- A sign and a magnitude have one pattern. -/
theorem eq_of_doubleMagnitude (r d : Word) (hsign : r.msb = d.msb) (h : doubleMagnitude r = doubleMagnitude d) :
    r = d := by
  have hexp : doubleExponent r = doubleExponent d := by
    rcases Nat.lt_trichotomy (doubleExponent r) (doubleExponent d) with hlt | heq | hgt
    · exact absurd h (doubleMagnitude_lt r d hlt).ne
    · exact heq
    · exact absurd h (doubleMagnitude_lt d r hgt).ne'
  rw [doubleMagnitude, doubleMagnitude, hexp, Nat.mul_left_inj (Nat.two_pow_pos _).ne'] at h
  exact double_ext r d hsign hexp (Nat.add_left_cancel h)

/-- No binary64 magnitude lies strictly between two neighbouring multiples of the unit of a binade (R53). -/
theorem doubleMagnitude_gap (d : Word) (quotient e : Nat) (hquotient : 2 ^ 52 ≤ quotient) :
    doubleMagnitude d ≤ quotient * 2 ^ e ∨ (quotient + 1) * 2 ^ e ≤ doubleMagnitude d := by
  have hfrac := doubleFraction_lt d
  rcases Nat.lt_or_ge (doubleExponent d) e with hlt | hge
  · left
    calc doubleMagnitude d ≤ 2 ^ 53 * 2 ^ doubleExponent d := Nat.mul_le_mul_right _ (by omega)
      _ = 2 ^ 52 * 2 ^ (doubleExponent d + 1) := by ring
      _ ≤ quotient * 2 ^ e := Nat.mul_le_mul hquotient (Nat.pow_le_pow_right (by decide) hlt)
  · obtain ⟨j, hj⟩ := Nat.exists_eq_add_of_le hge
    have hmultiple : doubleMagnitude d = (2 ^ 52 + doubleFraction d) * 2 ^ j * 2 ^ e := by
      rw [doubleMagnitude, hj, pow_add]; ring
    rw [hmultiple]
    rcases Nat.lt_or_ge quotient ((2 ^ 52 + doubleFraction d) * 2 ^ j) with hmore | hless
    · exact .inr (Nat.mul_le_mul_right _ hmore)
    · exact .inl (Nat.mul_le_mul_right _ hless)

theorem normalDoubleValue_eq (r : Word) :
    normalDoubleValue r = ((signFactor r * doubleMagnitude r : Int) : ℚ) / 2 ^ 1075 := by
  have hscale : (2 : ℚ) ^ 1075 = 2 ^ 1023 * 2 ^ 52 := pow_add 2 1023 52
  have hbias : (2 : ℚ) ^ 1023 ≠ 0 := by positivity
  have hexp : (2 : ℚ) ^ ((doubleExponent r : ℤ) - 1023) = 2 ^ doubleExponent r / 2 ^ 1023 := by
    rw [zpow_sub₀ two_ne_zero, zpow_natCast]
    rfl
  rw [normalDoubleValue, hexp, hscale, signFactor, doubleMagnitude]
  generalize (2 : ℚ) ^ 1023 = bias at hbias
  push_cast
  field_simp
  norm_num

theorem fixedValue_eq_over_double (x : Word) :
    fixedValue x = ((x.toInt * (2 ^ (52 + 991) : Nat) : Int) : ℚ) / 2 ^ 1075 := by
  have hscale : (2 : ℚ) ^ 1075 = 2 ^ (52 + 991) * 2 ^ 32 := pow_add 2 (52 + 991) 32
  have hpos : (2 : ℚ) ^ (52 + 991) ≠ 0 := by positivity
  rw [fixedValue, hscale, Int.cast_mul, Int.cast_natCast, Nat.cast_pow, Nat.cast_ofNat]
  generalize (2 : ℚ) ^ (52 + 991) = c at hpos
  field_simp

/-! ### The result of `TODBL` -/

theorem magnitude_pos (x : Word) (hx : x ≠ 0) : 0 < x.toInt.natAbs :=
  Int.natAbs_pos.mpr fun hzero => hx (BitVec.eq_of_toInt_eq hzero)

theorem signFactor_mul_natAbs (x : Word) : signFactor x * x.toInt.natAbs = x.toInt := by
  by_cases hx : x = 0
  · subst hx; rfl
  · rw [signFactor, ← sign_of_msb x hx, Int.sign_mul_natAbs]

/-- The position of the highest set bit of the magnitude (R52). -/
def topBit (x : Word) : Nat :=
  Nat.log2 x.toInt.natAbs

theorem topBit_le (x : Word) (hx : x ≠ 0) : topBit x ≤ 63 := by
  have hle : x.toInt.natAbs < 2 ^ 64 := by have := word_toInt_bounds x; omega
  exact Nat.le_of_lt_succ ((Nat.log2_lt (magnitude_pos x hx).ne').mpr hle)

/-- What `TODBL` of a non-zero value comes to: the fields of its pattern, and its magnitude over `2^1075`, rounded in
the binade of the value (R52, D12). -/
structure IsDoubleOf (x r : Word) : Prop where
  sign : r.msb = x.msb
  exponent : 991 ≤ doubleExponent r ∧ doubleExponent r ≤ 1054
  rounded : ∃ quotient, 2 ^ 52 ≤ quotient ∧
    RoundedAt quotient (2 ^ (topBit x + 991)) (x.toInt.natAbs * 2 ^ (52 + 991)) (doubleMagnitude r)
      (doubleFraction r % 2 = 0)

theorem toDoubleResult_of_ne_zero (x : Word) (hx : x ≠ 0) : toDoubleResult x =
    packDouble x.msb ((roundSignificand x.toInt.natAbs (topBit x)).2 + 1023 - 32)
      ((roundSignificand x.toInt.natAbs (topBit x)).1 - 2 ^ 52) := by
  have hne : ¬ x.toNat = 0 := fun h => hx (BitVec.eq_of_toNat_eq h)
  rw [toDoubleResult, if_neg hne, magnitude_toNat]
  rfl

/-- A significand and its exponent, packed, are the rounded value. -/
theorem isDoubleOf_packDouble (x : Word) (q k' : Nat) (hx : x ≠ 0)
    (h : IsSignificand x.toInt.natAbs (topBit x) q k') :
    IsDoubleOf x (packDouble x.msb (k' + 1023 - 32) (q - 2 ^ 52)) := by
  have hmax : x.toInt.natAbs ≤ 2 ^ 63 := magnitude_toNat x ▸ magnitude_toNat_le x
  have hk' := h.exponent_le hmax (topBit_le x hx)
  obtain ⟨⟨hlo, hhi⟩, quotient, hquotient, hrounded⟩ := h
  have hexp : doubleExponent (packDouble x.msb (k' + 1023 - 32) (q - 2 ^ 52)) = k' + 991 :=
    doubleExponent_packDouble _ _ _ (by omega)
  have hfrac : doubleFraction (packDouble x.msb (k' + 1023 - 32) (q - 2 ^ 52)) = q - 2 ^ 52 :=
    doubleFraction_packDouble _ _ _ (by omega)
  refine ⟨msb_packDouble _ _ _, by omega, quotient, hquotient, ?_⟩
  rw [doubleMagnitude, hexp, hfrac, Nat.add_sub_cancel' hlo]
  exact (hrounded.shift 991).imp fun heven => by omega

theorem isDoubleOf_toDoubleResult (x : Word) (hx : x ≠ 0) : IsDoubleOf x (toDoubleResult x) := by
  have hm := (magnitude_pos x hx).ne'
  rw [toDoubleResult_of_ne_zero x hx]
  exact isDoubleOf_packDouble x _ _ hx
    (roundSignificand_isSignificand _ _ (Nat.log2_self_le hm) Nat.lt_log2_self)

theorem abs_sub_toInt_mul (x : Word) (n c : Int) :
    |n - x.toInt * c| = |signFactor x * n - x.toInt.natAbs * c| := by
  have hx := signFactor_mul_natAbs x
  generalize x.toInt.natAbs = m at hx ⊢
  rw [← hx]
  rcases signFactor_cases x with ⟨-, hsign⟩ | ⟨-, hsign⟩
  · rw [hsign, ← abs_neg]
    ring_nf
  · rw [hsign, one_mul, one_mul]

/-- A binary64 number as an integer over `2^1075`, negated where the value `x` is negative. -/
def alignedDouble (x r : Word) : Int :=
  signFactor x * (signFactor r * doubleMagnitude r)

/-- The distance of a binary64 number from a value, as a distance of integers over `2^1075`. -/
theorem normalDoubleValue_error (r x : Word) : |normalDoubleValue r - fixedValue x| =
    ((|alignedDouble x r - (x.toInt.natAbs * 2 ^ (52 + 991) : Nat)| : Int) : ℚ) / 2 ^ 1075 := by
  have habs := abs_sub_toInt_mul x (signFactor r * doubleMagnitude r) (2 ^ (52 + 991) : Nat)
  rw [normalDoubleValue_eq, fixedValue_eq_over_double, ← sub_div, ← Int.cast_sub, abs_div,
    abs_of_pos (by positivity : (0 : ℚ) < 2 ^ 1075), ← Int.cast_abs, habs, alignedDouble, Int.natCast_mul]

theorem alignedDouble_of_msb_eq (x r : Word) (h : r.msb = x.msb) : alignedDouble x r = doubleMagnitude r := by
  have hsign : signFactor r = signFactor x := by rw [signFactor, signFactor, h]
  rw [alignedDouble, hsign]
  rcases signFactor_cases x with ⟨-, hx⟩ | ⟨-, hx⟩ <;> rw [hx] <;> ring

theorem alignedDouble_of_msb_ne (x r : Word) (h : r.msb ≠ x.msb) : alignedDouble x r = -doubleMagnitude r := by
  rw [alignedDouble]
  rcases signFactor_cases x with ⟨hx, hxs⟩ | ⟨hx, hxs⟩ <;> rcases signFactor_cases r with ⟨hr, hrs⟩ | ⟨hr, hrs⟩
  · exact absurd (hr.trans hx.symm) h
  · rw [hxs, hrs]; ring
  · rw [hxs, hrs]; ring
  · exact absurd (hr.trans hx.symm) h

/-- Every binary64 number is at most the lower or at least the upper neighbour of the value, and no other one has the
magnitude and the sign of the result. -/
theorem alignedDouble_gap (x r d : Word) (hsign : r.msb = x.msb) (hne : d ≠ r) (quotient e : Nat)
    (hquotient : 2 ^ 52 ≤ quotient) :
    alignedDouble x d ≠ doubleMagnitude r ∧
      (alignedDouble x d ≤ (quotient * 2 ^ e : Nat) ∨ ((quotient + 1) * 2 ^ e : Nat) ≤ alignedDouble x d) := by
  have hpos := doubleMagnitude_pos d
  by_cases hd : d.msb = x.msb
  · rw [alignedDouble_of_msb_eq x d hd]
    refine ⟨fun heq => hne (eq_of_doubleMagnitude d r (hd.trans hsign.symm) (Int.ofNat.inj heq)), ?_⟩
    exact_mod_cast doubleMagnitude_gap d quotient e hquotient
  · rw [alignedDouble_of_msb_ne x d hd]
    exact ⟨by omega, .inl (by omega)⟩

/-! ### The obligations -/

theorem answersWith_todbl (x : Word) : AnswersWith (.todbl x) (.ok (toDoubleResult x)) :=
  answersWith_of_exec_eq_respond _ _ (exec_todbl x)

/-- Settles O22: the result is the value rounded in its binade, and no binary64 number lies between the two multiples
about the value. -/
theorem toDblIsNearestTiesToEven : Obligations.ToDblIsNearestTiesToEven := by
  refine ⟨answersWith_todbl 0, fun x hx => ⟨toDoubleResult x, answersWith_todbl x, ?_⟩⟩
  obtain ⟨hsign, hexp, quotient, hquotient, hrounded⟩ := isDoubleOf_toDoubleResult x hx
  have hscale : (0 : ℚ) < 2 ^ 1075 := by positivity
  refine ⟨⟨by omega, by omega⟩, hsign, fun d _ hne => ?_⟩
  obtain ⟨hother, hgap⟩ := alignedDouble_gap x _ d hsign hne quotient (topBit x + 991) hquotient
  rw [normalDoubleValue_error, normalDoubleValue_error, div_le_div_iff_of_pos_right hscale, div_left_inj' hscale.ne',
    Int.cast_le, Int.cast_inj, alignedDouble_of_msb_eq x _ hsign]
  exact hrounded.nearest _ hother hgap

/-- Settles O23: the exponent field is `k' + 991`, where `k'` is the position of the highest bit after rounding, at most
63. -/
theorem toDblExponentRange : Obligations.ToDblExponentRange := by
  intro x hx
  obtain ⟨hlo, hhi⟩ := (isDoubleOf_toDoubleResult x hx).exponent
  exact ⟨toDoubleResult x, answersWith_todbl x, hlo, hhi⟩

/-- A magnitude that is a multiple of the unit of its binade is not rounded. -/
theorem normalDoubleValue_toDoubleResult (x : Word) (hx : x ≠ 0) (hdvd : 2 ^ topBit x ∣ x.toInt.natAbs * 2 ^ 52) :
    normalDoubleValue (toDoubleResult x) = fixedValue x := by
  obtain ⟨hsign, -, quotient, -, hrounded⟩ := isDoubleOf_toDoubleResult x hx
  have hunit : 2 ^ (topBit x + 991) ∣ x.toInt.natAbs * 2 ^ (52 + 991) := by
    rw [pow_add, pow_add, ← Nat.mul_assoc]
    exact Nat.mul_dvd_mul_right hdvd _
  have hexact := hrounded.eq_target_of_dvd hunit
  have herror := normalDoubleValue_error (toDoubleResult x) x
  rw [alignedDouble_of_msb_eq x _ hsign, hexact, sub_self, abs_zero, Int.cast_zero, zero_div] at herror
  exact sub_eq_zero.mp (abs_eq_zero.mp herror)

/-- Up to `2^53` every bit of the magnitude has a place in the significand. -/
theorem topBit_dvd_of_le (x : Word) (hx : x ≠ 0) (h : x.toInt.natAbs ≤ 2 ^ 53) :
    2 ^ topBit x ∣ x.toInt.natAbs * 2 ^ 52 := by
  have hlo : 2 ^ topBit x ≤ x.toInt.natAbs := Nat.log2_self_le (magnitude_pos x hx).ne'
  rcases Nat.lt_or_ge 52 (topBit x) with hlarge | hsmall
  · have htop : 2 ^ 53 ≤ 2 ^ topBit x := Nat.pow_le_pow_right (by decide) hlarge
    have hequal : x.toInt.natAbs = 2 ^ topBit x := by omega
    rw [hequal]
    exact Nat.dvd_mul_right _ _
  · exact Dvd.dvd.mul_left (pow_dvd_pow 2 hsmall) _

/-- A multiple of `2^32` has 32 zero bits to spare. -/
theorem topBit_dvd_of_fromInt (n : HalfLimb) (hx : fromIntResult n ≠ 0) :
    2 ^ topBit (fromIntResult n) ∣ (fromIntResult n).toInt.natAbs * 2 ^ 52 := by
  have hmultiple : (fromIntResult n).toInt.natAbs * 2 ^ 52 = n.toInt.natAbs * 2 ^ 84 := by
    rw [fromIntResult_toInt, Int.natAbs_mul, Nat.mul_assoc]
    rfl
  have htop := topBit_le _ hx
  rw [hmultiple]
  exact Dvd.dvd.mul_left (pow_dvd_pow 2 (by omega)) _

theorem fromIntResult_ne_zero (n : HalfLimb) (hn : n ≠ 0) : fromIntResult n ≠ 0 := by
  intro hzero
  have hvalue := fromIntResult_toInt n
  rw [hzero] at hvalue
  have hn0 : n.toInt = 0 := by
    have h0 : (0 : Word).toInt = 0 := rfl
    omega
  exact hn (BitVec.eq_of_toInt_eq hn0)

/-- Settles O24: in both cases the unit of the value's binade divides the value. -/
theorem toDblIsExactWhenItFits : Obligations.ToDblIsExactWhenItFits := by
  refine ⟨fun x hx hfits => ?_, fun n hn => ?_⟩
  · exact ⟨_, answersWith_todbl x, normalDoubleValue_toDoubleResult x hx (topBit_dvd_of_le x hx hfits)⟩
  · have hx := fromIntResult_ne_zero n hn
    refine ⟨_, _, answersWith_fromint n, answersWith_todbl _, ?_⟩
    rw [normalDoubleValue_toDoubleResult _ hx (topBit_dvd_of_fromInt n hx), fixedValue_fromIntResult]

end Sys2Proof.Machine
end
